-- ==== Sys2Proof/Word.lean ====
section
/-! DEFINITION. The bit-vector types of the block (R7, R10): a cell is a byte, a pair view a 16-bit word, a register
identifier four bits. Every value is unsigned. -/

namespace Sys2Proof

/-- The contents of one cell: an unsigned 8-bit value (R7, R15). -/
abbrev Byte := BitVec 8

/-- The value of a pair view, and of the wdata and rdata ports (R7, R45). -/
abbrev Word := BitVec 16

/-- A register identifier, the rid field of the command word (R47, R50). -/
abbrev RegId := BitVec 4

/-- The contents of the flag ports fin and fout (R45, R52). -/
abbrev FlagBits := BitVec 4

end Sys2Proof
end

