-- ==== Sys2Proof/Config.lean ====
section
/-! DEFINITION. What the spec fixes as the block's one parameter (R8), and the free values for what it leaves
unspecified (R55, 93_implementation_defined.md I3). -/

namespace Sys2Proof

/-- The reset value of every cell: 0x00 (R8, R93). -/
def Config.resetByte : Byte := 0x00

/-- What rdata carries with a response that does not name it: R55, "an unspecified value that no rule reads".
A free value (log entry 2, DESIGN CHOICE of its form): it has no body, so nothing can be proved of it. -/
opaque Config.unspecifiedRdata : Nat → Word

/-- What fout carries with a response that does not name it (R55). A free value, as above (log entry 2). -/
opaque Config.unspecifiedFout : Nat → FlagBits

end Sys2Proof
end

