-- ==== Sys2Proof/Syntax.lean ====
section
/-! DEFINITION. The names the block decodes, the input ports of one step, and its operations: one constructor per row of
spec/opcode_table.json. -/

namespace Sys2Proof

/-- The eight cells, in the source's order (R15). The cells H and C are not the flags halfCarry and carry (R14). -/
inductive CellName where
  | a | b | c | d | e | f | h | l
  deriving DecidableEq, Repr

/-- The four pair views (R18). -/
inductive PairName where
  | af | bc | de | hl
  deriving DecidableEq, Repr

/-- A name of the register-identifier space: a cell or a pair (R50). -/
inductive RegName where
  | cell (r : CellName)
  | pair (p : PairName)
  deriving DecidableEq, Repr

/-- The Boolean flag view (R13). -/
structure Flags where
  zero : Bool
  subtract : Bool
  halfCarry : Bool
  carry : Bool
  deriving DecidableEq, Repr

/-- The block's input ports in one step (R45). -/
structure Request where
  cmd : Byte
  wdata : Word
  fin : FlagBits
  deriving DecidableEq, Repr

/-- The operations of R54, and the two reserved rows of the opcode table, which R54 calls Reserved.
The register identifier is carried unchecked (R54): the operation's own rule checks it. -/
inductive Instr where
  /-- Row ReadPair (R63). -/
  | readPair (rid : RegId)
  /-- Row WritePair (R64). -/
  | writePair (rid : RegId) (value : Word)
  /-- Row GetFlags (R67). Its rid is ignored (R51), so R54 gives the operation no operand. -/
  | getFlags
  /-- Row SetFlags (R69). -/
  | setFlags (fl : Flags)
  /-- Row ReadCell (R73). -/
  | readCell (rid : RegId)
  /-- Row WriteCell (R74). -/
  | writeCell (rid : RegId) (v : Byte)
  /-- Row RESERVED_OP: op 110 or 111 (R53). It holds the whole command word. -/
  | reservedOp (cmd : Byte)
  /-- Row RESERVED_BIT7: cmd[7] = 1 (R53). It holds the whole command word. -/
  | reservedBit7 (cmd : Byte)
  deriving DecidableEq, Repr

end Sys2Proof
end

