-- ==== Sys2Proof/Machine/State.lean ====
section
/-! DEFINITION. The state of the machine: the block's eight cells (R15), and what the spec gives a run around them: the
operations the issuer has yet to present (R24, R39), the responses given (R100) and the fault record (R82). -/

namespace Sys2Proof.Machine

/-- The block's entire architectural state: eight independent bytes (R15, R27). -/
structure Cells where
  a : Byte
  b : Byte
  c : Byte
  d : Byte
  e : Byte
  f : Byte
  h : Byte
  l : Byte
  deriving DecidableEq, Repr

/-- The block's single error kind (R77), with the offending rid (R78). -/
inductive BlockError where
  | invalidRegisterIdentifier (rid : RegId)
  deriving DecidableEq, Repr

/-- The response of a completed step (R55). -/
inductive Response where
  | word (v : Word)
  | byte (v : Byte)
  | flagsR (fl : Flags)
  | ack
  | err (e : BlockError)
  deriving DecidableEq, Repr

/-- The output ports in the step that gives a response (R45). -/
structure OutPorts where
  rdata : Word
  fout : FlagBits
  err : Bool
  deriving DecidableEq, Repr

/-- A completed step: its response, and what the output ports carried with it (R55). -/
structure Completion where
  response : Response
  ports : OutPorts
  deriving DecidableEq, Repr

/-- An entry of the fault record: the number of the step, counted from 1 as in 95_test_vectors.md P3, and its error (R82). -/
structure FaultEntry where
  step : Nat
  error : BlockError
  deriving DecidableEq, Repr

/-- What the outside presents to the block in one step. -/
inductive Input where
  /-- One operation on the input ports (R46). -/
  | op (r : Request)
  /-- The reset event (R91). -/
  | reset
  /-- Two issuers present an operation at once (R43). -/
  | contended (r₁ r₂ : Request)
  deriving DecidableEq, Repr

/-- The machine. `cells` is the block (R15); the other fields are the run's (log entry 1). -/
structure State where
  /-- The eight cells (R15). -/
  cells : Cells
  /-- What is presented in the steps to come, the next one first (R24, R39). -/
  inputs : List Input
  /-- How many operations have been performed: the list position of R24. -/
  position : Nat
  /-- The completed steps, oldest first: "the list of responses, one per operation" (R100). -/
  completed : List Completion
  /-- Every Err response of the run, oldest first; nothing clears it (R82). -/
  faultRecord : List FaultEntry
  /-- The model's own: the index of the next unspecified port value (log entry 2). No rule reads it. -/
  freeIndex : Nat
  deriving DecidableEq, Repr

/-- Why the machine stops. -/
inductive Fault where
  /-- Raised by a step with nothing presented: "The run ends after its last operation" (R100). Safe: the machine stops where the
  block would wait (log entry 6). -/
  | runEnded
  deriving DecidableEq, Repr

/-- Why a step is refused. -/
inductive Refusal where
  /-- An instruction without a meaning yet. No arm raises it: every instruction has its meaning. -/
  | notModelled (mnemonic : String)
  /-- Raised by RESERVED_OP and RESERVED_BIT7: "a model must **refuse** a step whose command word is reserved" (R53). Safe. -/
  | reservedCommandWord (cmd : Byte)
  /-- Raised by a reset event after the first operation: the spec "defines no reset in the middle of a run" (R91; I4: refuse). Safe. -/
  | resetInRun
  /-- Raised by two operations presented at once: "a model must refuse, not interleave" (R43; I5: refuse). Safe. -/
  | concurrentIssue
  deriving DecidableEq, Repr

/-- The cells after reset: 0x00 each (R93). -/
def Cells.reset : Cells :=
  { a := Config.resetByte, b := Config.resetByte, c := Config.resetByte, d := Config.resetByte
    e := Config.resetByte, f := Config.resetByte, h := Config.resetByte, l := Config.resetByte }

/-- The machine right after reset: the cells as R93 says, nothing performed and no response given (R91), nothing presented
(log entry 3). `freeIndex` starts at 0 (log entry 2). -/
def State.reset : State :=
  { cells := Cells.reset, inputs := [], position := 0, completed := [], faultRecord := [], freeIndex := 0 }

end Sys2Proof.Machine
end

