-- ==== Sys2Proof/Machine/Flags.lean ====
section
/-! DEFINITION. The flag decoder and encoder of F (R67, R69), at the hardware-fixed bit positions of R7 and R21. -/

namespace Sys2Proof.Machine

/-- The bit of F that holds the zero flag (R7). -/
def posZero : Nat := 7

/-- The bit of F that holds the subtract flag (R7). -/
def posSubtract : Nat := 6

/-- The bit of F that holds the halfCarry flag (R7). -/
def posHalfCarry : Nat := 5

/-- The bit of F that holds the carry flag (R7). -/
def posCarry : Nat := 4

/-- One flag of F: `(F >> bitPosition) & 1 != 0` (R67). -/
def flagAt (f : Byte) (pos : Nat) : Bool := (f >>> pos) &&& 1 != 0

/-- The decoder (R67). F[3:0] are ignored. -/
def decodeF (f : Byte) : Flags :=
  { zero := flagAt f posZero, subtract := flagAt f posSubtract
    halfCarry := flagAt f posHalfCarry, carry := flagAt f posCarry }

/-- One flag at its place: `(bit ? 1 : 0) << bitPosition` (R69). -/
def flagBit (b : Bool) (pos : Nat) : Byte := (if b then 1 else 0) <<< pos

/-- The encoder (R69). Bits 3..0 are 0. -/
def encodeF (fl : Flags) : Byte :=
  flagBit fl.zero posZero ||| flagBit fl.subtract posSubtract ||| flagBit fl.halfCarry posHalfCarry ||| flagBit fl.carry posCarry

/-- The flag view of the F cell (R21). -/
def Cells.flagView (c : Cells) : Flags := decodeF c.f

end Sys2Proof.Machine
end

