-- ==== Sys2Proof/WellFormed.lean ====
section
/-! DEFINITION. Which instructions stand for a command word. The six operations accept every operand their types hold (a rid the
operation does not accept is a response, not an encoding error: R54). A reserved row holds a command word, which must be
one of that row. -/

namespace Sys2Proof

/-- The command word of RESERVED_OP matches `011xxxxx`, that of RESERVED_BIT7 `1xxxxxxx` (R53, opcode_table.json). -/
def Instr.wellFormed : Instr → Bool
  | .readPair _ => true
  | .writePair _ _ => true
  | .getFlags => true
  | .setFlags _ => true
  | .readCell _ => true
  | .writeCell _ _ => true
  | .reservedOp cmd => cmd.extractLsb' 5 3 == 0b011#3
  | .reservedBit7 cmd => cmd.extractLsb' 7 1 == 1#1

end Sys2Proof
end

