-- ==== Sys2Proof/Decode.lean ====
section
/-! DEFINITION. Register-identifier codes (R50), the flag ports (R52), the decoder (R47 to R49, R54) and after it the encoder.
The decoder is total on the 256 command words (R54); a bit string that is no command word with its operand ports is
refused by name. -/

namespace Sys2Proof

/-! ## Register identifiers -/

/-- The rid code of a cell (R50). -/
def CellName.rid : CellName → RegId
  | .a => 0x0
  | .b => 0x1
  | .c => 0x2
  | .d => 0x3
  | .e => 0x4
  | .f => 0x5
  | .h => 0x6
  | .l => 0x7

/-- The rid code of a pair (R50). -/
def PairName.rid : PairName → RegId
  | .af => 0x8
  | .bc => 0x9
  | .de => 0xA
  | .hl => 0xB

/-- The rid code of a name (R50). -/
def RegName.rid : RegName → RegId
  | .cell r => r.rid
  | .pair p => p.rid

/-- What a rid names (R50): 0xC to 0xF name nothing. -/
def regNameOf (rid : RegId) : Option RegName :=
  match rid with
  | 0x0#4 => some (.cell .a)
  | 0x1#4 => some (.cell .b)
  | 0x2#4 => some (.cell .c)
  | 0x3#4 => some (.cell .d)
  | 0x4#4 => some (.cell .e)
  | 0x5#4 => some (.cell .f)
  | 0x6#4 => some (.cell .h)
  | 0x7#4 => some (.cell .l)
  | 0x8#4 => some (.pair .af)
  | 0x9#4 => some (.pair .bc)
  | 0xA#4 => some (.pair .de)
  | 0xB#4 => some (.pair .hl)
  | _ => none

/-! ## The flag ports -/

/-- The record that fin carries: bit 3 zero, bit 2 subtract, bit 1 halfCarry, bit 0 carry (R52). -/
def flagsOfFin (fin : FlagBits) : Flags :=
  { zero := fin[3], subtract := fin[2], halfCarry := fin[1], carry := fin[0] }

/-- The same order the other way: what fout carries for a record, and what fin must carry to hold it (R52). -/
def finOfFlags (fl : Flags) : FlagBits :=
  BitVec.ofBool fl.zero ++ BitVec.ofBool fl.subtract ++ BitVec.ofBool fl.halfCarry ++ BitVec.ofBool fl.carry

/-! ## Decoding -/

/-- The op field, bits 6..4 of the command word (R47). -/
def opField (cmd : Byte) : BitVec 3 := cmd.extractLsb' 4 3

/-- The rid field, bits 3..0 of the command word (R47). -/
def ridField (cmd : Byte) : RegId := cmd.extractLsb' 0 4

/-- The operand of WriteCell: wdata[7:0], the high byte ignored (R49). -/
def cellOperand (wdata : Word) : Byte := wdata.extractLsb' 0 8

/-- Decode (R54): the reserved bit is looked at first, then the op field. -/
def decode (r : Request) : Instr :=
  if r.cmd[7] then .reservedBit7 r.cmd
  else
    match opField r.cmd with
    | 0b000#3 => .readPair (ridField r.cmd)
    | 0b001#3 => .writePair (ridField r.cmd) r.wdata
    | 0b010#3 => .getFlags
    | 0b011#3 => .setFlags (flagsOfFin r.fin)
    | 0b100#3 => .readCell (ridField r.cmd)
    | 0b101#3 => .writeCell (ridField r.cmd) (cellOperand r.wdata)
    | _ => .reservedOp r.cmd

/-- Why a bit string is no instruction: an operation is one 8-bit command word and its operand ports (R57). -/
inductive DecodeRefusal where
  /-- Fewer bits than the command word has. -/
  | commandWordCutShort
  /-- More bits than the command word, wdata and fin have together. -/
  | longerThanAllPorts
  deriving DecidableEq, Repr

/-- The input ports as one bit string: cmd in bits 7..0, wdata in bits 23..8, fin in bits 27..24. The spec gives the ports
no common numbering: the command word's is opcode_table.json's, the rest is log entry 4 (DESIGN CHOICE). -/
def requestOfBits (w : Nat) : Request :=
  { cmd := BitVec.ofNat 8 w, wdata := BitVec.ofNat 16 (w / 2 ^ 8), fin := BitVec.ofNat 4 (w / 2 ^ 24) }

/-- Decode an instruction of `nbits` bits `w`, every port bit above them 0. -/
def decodeBits (nbits w : Nat) : Except DecodeRefusal Instr :=
  if nbits < 8 then .error .commandWordCutShort
  else if 28 < nbits then .error .longerThanAllPorts
  else .ok (decode (requestOfBits (w % 2 ^ nbits)))

/-- The decoder on an instruction numbered as spec/opcode_table.json numbers it. -/
def decodeTableWord (nbits w : Nat) : Option Instr :=
  match decodeBits nbits w with
  | .ok i => some i
  | .error _ => none

/-! ## Encoding -/

/-- The command word `0 ooo rrrr` (R47). -/
def commandWord (op : BitVec 3) (rid : RegId) : Byte := 0#1 ++ op ++ rid

/-- The ports that present an instruction (R48, R49, R58). GetFlags and SetFlags get their canonical words 0x20 and 0x30
(R56). A port the operation ignores is driven with 0 (log entry 5, DESIGN CHOICE; R49 says it has no effect). -/
def encode : Instr → Request
  | .readPair rid => ⟨commandWord 0b000 rid, 0, 0⟩
  | .writePair rid value => ⟨commandWord 0b001 rid, value, 0⟩
  | .getFlags => ⟨commandWord 0b010 0b0000, 0, 0⟩
  | .setFlags fl => ⟨commandWord 0b011 0b0000, 0, finOfFlags fl⟩
  | .readCell rid => ⟨commandWord 0b100 rid, 0, 0⟩
  | .writeCell rid v => ⟨commandWord 0b101 rid, v.setWidth 16, 0⟩
  | .reservedOp cmd => ⟨cmd, 0, 0⟩
  | .reservedBit7 cmd => ⟨cmd, 0, 0⟩

/-! ## The opcode table -/

/-- A row of opcode_table.json: its mask and match. -/
structure OpcodeRow where
  mask : Byte
  pattern : Byte
  deriving DecidableEq, Repr

/-- The row's words: those that agree with its pattern on its mask. -/
def OpcodeRow.covers (row : OpcodeRow) (cmd : Byte) : Bool := cmd &&& row.mask == row.pattern

/-- The eight rows of opcode_table.json, in its order. -/
def opcodeTable : List OpcodeRow :=
  [⟨0xF0, 0x00⟩, ⟨0xF0, 0x10⟩, ⟨0xF0, 0x20⟩, ⟨0xF0, 0x30⟩, ⟨0xF0, 0x40⟩, ⟨0xF0, 0x50⟩, ⟨0xE0, 0x60⟩, ⟨0x80, 0x80⟩]

/-- The row an instruction belongs to. -/
def Instr.row : Instr → OpcodeRow
  | .readPair _ => ⟨0xF0, 0x00⟩
  | .writePair _ _ => ⟨0xF0, 0x10⟩
  | .getFlags => ⟨0xF0, 0x20⟩
  | .setFlags _ => ⟨0xF0, 0x30⟩
  | .readCell _ => ⟨0xF0, 0x40⟩
  | .writeCell _ _ => ⟨0xF0, 0x50⟩
  | .reservedOp _ => ⟨0xE0, 0x60⟩
  | .reservedBit7 _ => ⟨0x80, 0x80⟩

/-- R53: the reserved command words. -/
def reservedWord (cmd : Byte) : Bool := cmd[7] || opField cmd == 0b110#3 || opField cmd == 0b111#3

end Sys2Proof
end

