-- ==== Sys2Proof/Machine/Operands.lean ====
section
/-! DEFINITION. What an operation's rid selects (R61, R73) and the conversions between a pair and its bytes (R62). -/

namespace Sys2Proof.Machine

/-- The current byte of a cell. -/
def Cells.get (c : Cells) : CellName → Byte
  | .a => c.a
  | .b => c.b
  | .c => c.c
  | .d => c.d
  | .e => c.e
  | .f => c.f
  | .h => c.h
  | .l => c.l

/-- Overwrite one cell and no other (R16). F stores all eight bits (R20). -/
def Cells.set (c : Cells) (r : CellName) (v : Byte) : Cells :=
  match r with
  | .a => { c with a := v }
  | .b => { c with b := v }
  | .c => { c with c := v }
  | .d => { c with d := v }
  | .e => { c with e := v }
  | .f => { c with f := v }
  | .h => { c with h := v }
  | .l => { c with l := v }

/-- The cell a rid names, for direct access (R73). -/
def cellOf (rid : RegId) : Option CellName :=
  match rid with
  | 0x0#4 => some .a
  | 0x1#4 => some .b
  | 0x2#4 => some .c
  | 0x3#4 => some .d
  | 0x4#4 => some .e
  | 0x5#4 => some .f
  | 0x6#4 => some .h
  | 0x7#4 => some .l
  | _ => none

/-- The pair selector: the two cells of the pair a rid names, high cell first (R61). -/
def pairOf (rid : RegId) : Option (CellName × CellName) :=
  match rid with
  | 0x8#4 => some (.a, .f)
  | 0x9#4 => some (.b, .c)
  | 0xA#4 => some (.d, .e)
  | 0xB#4 => some (.h, .l)
  | _ => none

/-- Compose a pair value from its bytes, high byte first (R62). -/
def compose (hi lo : Byte) : Word := (hi.setWidth 16 <<< 8) ||| lo.setWidth 16

/-- The high byte of a pair value (R62). -/
def splitHi (v : Word) : Byte := ((v >>> 8) &&& 0xFF).setWidth 8

/-- The low byte of a pair value (R62). -/
def splitLo (v : Word) : Byte := (v &&& 0xFF).setWidth 8

/-- The first-named cell of a pair, its high byte (R18, R30). -/
def highCell : PairName → CellName
  | .af => .a
  | .bc => .b
  | .de => .d
  | .hl => .h

/-- The second-named cell of a pair, its low byte (R18, R30). -/
def lowCell : PairName → CellName
  | .af => .f
  | .bc => .c
  | .de => .e
  | .hl => .l

/-- A pair view: always the composition of its two current cells (R18, R19). -/
def Cells.pairView (c : Cells) (p : PairName) : Word := compose (c.get (highCell p)) (c.get (lowCell p))

end Sys2Proof.Machine
end

