-- ==== Sys2Proof/Machine/Ops.lean ====
section
/-! DEFINITION. The operations the meanings share: completing a step with its response (R55), raising the block's one error
(R80), and the reset event (R91). There is no return from an error: it is a response, not a change of control (R86). -/

namespace Sys2Proof.Machine

/-- What a step answers in this model. -/
abbrev Answer := Host.Outcome State Fault Refusal

/-- The output ports that carry a response (R55). A port the response does not name carries the free value of index `n`. -/
def portsOf (r : Response) (n : Nat) : OutPorts :=
  match r with
  | .word v => { rdata := v, fout := Config.unspecifiedFout n, err := false }
  | .byte v => { rdata := v.setWidth 16, fout := Config.unspecifiedFout n, err := false }
  | .flagsR fl => { rdata := Config.unspecifiedRdata n, fout := finOfFlags fl, err := false }
  | .ack => { rdata := Config.unspecifiedRdata n, fout := Config.unspecifiedFout n, err := false }
  | .err _ => { rdata := Config.unspecifiedRdata n, fout := Config.unspecifiedFout n, err := true }

/-- What a response adds to the fault record: every Err, under the number of its step (R82). -/
def faultEntries (step : Nat) (r : Response) : List FaultEntry :=
  match r with
  | .err e => [{ step := step, error := e }]
  | .word _ => []
  | .byte _ => []
  | .flagsR _ => []
  | .ack => []

/-- The state after a step that gave the response `r`: one response per completed step (R55), the list position advanced by one
(R24), an Err recorded (R82). The cells are as the operation left them. -/
def State.respond (s : State) (r : Response) : State :=
  { s with
    position := s.position + 1
    completed := s.completed ++ [{ response := r, ports := portsOf r s.freeIndex }]
    faultRecord := s.faultRecord ++ faultEntries (s.position + 1) r
    freeIndex := s.freeIndex + 1 }

/-- The state with its cells replaced: an operation commits all its writes together (R35, R36). -/
def State.withCells (s : State) (c : Cells) : State := { s with cells := c }

/-- Complete the step with a response (R55). -/
def complete (s : State) (r : Response) : Answer := .next (s.respond r)

/-- Raise InvalidRegisterIdentifier (R80, R81): no cell is written, no value returned, the step responds Err and the block goes on. -/
def raiseInvalidRegisterIdentifier (rid : RegId) (s : State) : Answer :=
  complete s (.err (.invalidRegisterIdentifier rid))

/-- The reset event (R91): it sets every cell to its reset value and nothing else. After the first operation it is refused (I4). -/
def resetEvent (s : State) : Answer :=
  if s.position = 0 then .next (s.withCells Cells.reset) else .refused .resetInRun

end Sys2Proof.Machine
end

