-- ==== Sys2Proof/Machine/CellAccess.lean ====
section
/-! DEFINITION. The meanings of direct cell access (42_cell_access.md): ReadCell and WriteCell. -/

namespace Sys2Proof.Machine

/-- ReadCell (R73). -/
def execReadCell (rid : RegId) (s : State) : Answer :=
  match cellOf rid with
  | none => raiseInvalidRegisterIdentifier rid s
  | some r => complete s (.byte (s.cells.get r))

/-- WriteCell (R74). WriteCell F stores the full byte (R20). -/
def execWriteCell (rid : RegId) (v : Byte) (s : State) : Answer :=
  match cellOf rid with
  | none => raiseInvalidRegisterIdentifier rid s
  | some r => complete (s.withCells (s.cells.set r v)) .ack

end Sys2Proof.Machine
end

