-- ==== Sys2Proof/Machine/FlagAccess.lean ====
section
/-! DEFINITION. The meanings of the flag family (41_flags.md): GetFlags and SetFlags. Neither can raise the error (R51). -/

namespace Sys2Proof.Machine

/-- GetFlags (R67). -/
def execGetFlags (s : State) : Answer := complete s (.flagsR (decodeF s.cells.f))

/-- SetFlags (R69): it overwrites F entirely. -/
def execSetFlags (fl : Flags) (s : State) : Answer := complete (s.withCells (s.cells.set .f (encodeF fl))) .ack

end Sys2Proof.Machine
end

