-- ==== Sys2Proof/Machine/PairAccess.lean ====
section
/-! DEFINITION. The meanings of the pair family (40_pair_access.md): ReadPair and WritePair. -/

namespace Sys2Proof.Machine

/-- ReadPair (R63). -/
def execReadPair (rid : RegId) (s : State) : Answer :=
  match pairOf rid with
  | none => raiseInvalidRegisterIdentifier rid s
  | some (hi, lo) => complete s (.word (compose (s.cells.get hi) (s.cells.get lo)))

/-- WritePair (R64). Both bytes commit together; WritePair AF stores all of F (R20). -/
def execWritePair (rid : RegId) (value : Word) (s : State) : Answer :=
  match pairOf rid with
  | none => raiseInvalidRegisterIdentifier rid s
  | some (hi, lo) => complete (s.withCells ((s.cells.set hi (splitHi value)).set lo (splitLo value))) .ack

end Sys2Proof.Machine
end

