-- ==== Sys2Proof/Machine/Reserved.lean ====
section
/-! DEFINITION. The reserved rows of the opcode table. R53: "The block gives them no meaning: a model must **refuse** a step whose
command word is reserved (no state change is defined, no response is defined)". -/

namespace Sys2Proof.Machine

/-- RESERVED_OP: op 110 or 111 (R53). -/
def execReservedOp (cmd : Byte) (_s : State) : Answer := .refused (.reservedCommandWord cmd)

/-- RESERVED_BIT7: cmd[7] = 1 (R53). -/
def execReservedBit7 (cmd : Byte) (_s : State) : Answer := .refused (.reservedCommandWord cmd)

end Sys2Proof.Machine
end

