-- ==== Sys2Proof/Machine/Dispatch.lean ====
section
/-! DEFINITION. The meaning of every instruction: one arm per constructor of Instr. -/

open Host

namespace Sys2Proof.Machine

def exec (i : Instr) (s : State) : Host.Outcome State Fault Refusal :=
  match i with
  | .readPair rid => Sys2Proof.Machine.execReadPair rid s
  | .writePair rid value => Sys2Proof.Machine.execWritePair rid value s
  | .getFlags => Sys2Proof.Machine.execGetFlags s
  | .setFlags fl => Sys2Proof.Machine.execSetFlags fl s
  | .readCell rid => Sys2Proof.Machine.execReadCell rid s
  | .writeCell rid v => Sys2Proof.Machine.execWriteCell rid v s
  | .reservedOp cmd => Sys2Proof.Machine.execReservedOp cmd s
  | .reservedBit7 cmd => Sys2Proof.Machine.execReservedBit7 cmd s

end Sys2Proof.Machine
end

