-- ==== Sys2Proof/Machine/Fetch.lean ====
section
/-! DEFINITION. Taking the next input: one per step (R46), in the order they are presented (R39). -/

namespace Sys2Proof.Machine

/-- What the next input asks for: an instruction to run in the state it leaves, or an answer without one. -/
inductive Fetched where
  | run (i : Instr) (s : State)
  | answered (o : Answer)

/-- Take the next input. The instruction decoded from the ports runs with the input taken off the list. -/
def fetch (s : State) : Fetched :=
  match s.inputs with
  | [] => .answered (.fault .runEnded)
  | .op r :: rest => .run (decode r) { s with inputs := rest }
  | .reset :: rest => .answered (resetEvent { s with inputs := rest })
  | .contended _ _ :: _ => .answered (.refused .concurrentIssue)

/-- Present an operation as the next input, in the place of whatever is there (log entry 3). -/
def State.present (s : State) (r : Request) : State := { s with inputs := .op r :: s.inputs.tail }

end Sys2Proof.Machine
end

