-- ==== Sys2Proof/Machine/Step.lean ====
section
/-! DEFINITION. One step of the machine: the next input is taken, and its operation performed (R46). -/

namespace Sys2Proof.Machine

/-- One step. -/
def step (s : State) : Host.Outcome State Fault Refusal :=
  match fetch s with
  | .run i t => exec i t
  | .answered o => o

/-- The state whose next step runs the instruction of `nbits` bits `w` (bits numbered as in `requestOfBits`). -/
def State.withFetchWord (s : State) (nbits w : Nat) : State := s.present (requestOfBits (w % 2 ^ nbits))

end Sys2Proof.Machine
end

