-- ==== Sys2Proof/Machine/Assembler.lean ====
section
/-! DEFINITION. The spec's notation for operations (R58, D18) and the ports it stands for. The lexical points the spec leaves
open are log entry 7 (DESIGN CHOICE). No step of the machine uses this file. -/

namespace Sys2Proof.Machine

/-- How a line names a register: by a name of R50, or by a raw rid written `#n`. -/
inductive AsmReg where
  | named (n : RegName)
  | raw (n : Nat)
  deriving DecidableEq, Repr

/-- One line of the notation (R58). The numerals are not yet checked to fit. -/
inductive AsmLine where
  | readPair (p : AsmReg)
  | writePair (p : AsmReg) (v16 : Nat)
  | getFlags
  | setFlags (fl : Flags)
  | readCell (r : AsmReg)
  | writeCell (r : AsmReg) (v8 : Nat)
  deriving DecidableEq, Repr

/-- The rid of a register operand; a raw rid is 0 to 15 (R58). -/
def asmRid : AsmReg → Option RegId
  | .named n => some n.rid
  | .raw n => if n < 16 then some (BitVec.ofNat 4 n) else none

/-- The instruction a line stands for. The assembler does not check that a name suits its operation; a numeral must fit its
operand (R58). -/
def asmInstr : AsmLine → Option Instr
  | .readPair p => (asmRid p).map .readPair
  | .writePair p v16 => if v16 < 2 ^ 16 then (asmRid p).map (.writePair · (BitVec.ofNat 16 v16)) else none
  | .getFlags => some .getFlags
  | .setFlags fl => some (.setFlags fl)
  | .readCell r => (asmRid r).map .readCell
  | .writeCell r v8 => if v8 < 2 ^ 8 then (asmRid r).map (.writeCell · (BitVec.ofNat 8 v8)) else none

/-- The ports a line puts its operation on (R58). -/
def assemble (l : AsmLine) : Option Request := (asmInstr l).map encode

/-! ## Reading the text of a line -/

/-- The pieces of a line. -/
inductive AsmToken where
  | word (w : List Char)
  | comma
  | lpar
  | rpar
  deriving DecidableEq, Repr

/-- The word read so far, if any, before the tokens that follow it. -/
def flushWord (w : List Char) (ts : List AsmToken) : List AsmToken :=
  match w with
  | [] => ts
  | _ :: _ => .word w.reverse :: ts

/-- Cut a line into tokens, `w` being the word read so far, last character first. A `;` starts a comment (R58). -/
def asmTokens : List Char → List Char → List AsmToken
  | w, [] => flushWord w []
  | w, ch :: rest =>
    if ch = ';' then flushWord w []
    else if ch = ' ' ∨ ch = '\t' ∨ ch = '\r' then flushWord w (asmTokens [] rest)
    else if ch = ',' then flushWord w (.comma :: asmTokens [] rest)
    else if ch = '(' then flushWord w (.lpar :: asmTokens [] rest)
    else if ch = ')' then flushWord w (.rpar :: asmTokens [] rest)
    else asmTokens (ch :: w) rest

/-- A digit's value, in any base up to sixteen. -/
def digitOf (ch : Char) : Option Nat :=
  let n := ch.toNat
  if 48 ≤ n ∧ n ≤ 57 then some (n - 48)
  else if 65 ≤ n ∧ n ≤ 70 then some (n - 55)
  else if 97 ≤ n ∧ n ≤ 102 then some (n - 87)
  else none

/-- The digits of a numeral in a base, after the value `acc`. -/
def digitsIn (base : Nat) : Nat → List Char → Option Nat
  | acc, [] => some acc
  | acc, ch :: rest =>
    match digitOf ch with
    | some d => if d < base then digitsIn base (acc * base + d) rest else none
    | none => none

/-- The digits of a binary numeral: an `_` inside it is a visual separator only, between two digits (R10). -/
def binaryDigits : Nat → List Char → Option Nat
  | acc, [] => some acc
  | acc, '_' :: '0' :: rest => binaryDigits (acc * 2) rest
  | acc, '_' :: '1' :: rest => binaryDigits (acc * 2 + 1) rest
  | acc, '0' :: rest => binaryDigits (acc * 2) rest
  | acc, '1' :: rest => binaryDigits (acc * 2 + 1) rest
  | _, _ :: _ => none

/-- A numeral: hexadecimal `0x..`, binary `0b..`, or decimal (R10). -/
def asmNumeral : List Char → Option Nat
  | '0' :: 'x' :: ch :: rest => digitsIn 16 0 (ch :: rest)
  | '0' :: 'b' :: '0' :: rest => binaryDigits 0 rest
  | '0' :: 'b' :: '1' :: rest => binaryDigits 1 rest
  | [] => none
  | ch :: rest => digitsIn 10 0 (ch :: rest)

/-- The names of R50, as they are written. -/
def regNames : List (List Char × RegName) :=
  [(['A'], .cell .a), (['B'], .cell .b), (['C'], .cell .c), (['D'], .cell .d),
    (['E'], .cell .e), (['F'], .cell .f), (['H'], .cell .h), (['L'], .cell .l),
    (['A', 'F'], .pair .af), (['B', 'C'], .pair .bc), (['D', 'E'], .pair .de), (['H', 'L'], .pair .hl)]

/-- A register operand (R58): a name of R50 or `#n`. -/
def asmReg : List Char → Option AsmReg
  | '#' :: ds => (asmNumeral ds).map .raw
  | w => (regNames.lookup w).map .named

/-- The terms of SetFlags, each at most once, in any order; an omitted term is 0 (R58). `seen` holds the letters read. -/
def asmFlagTerms : List Char → Flags → List AsmToken → Option Flags
  | _, fl, [] => some fl
  | seen, fl, .word [k, '=', b] :: rest =>
    if k ∈ seen ∨ ¬ (b = '0' ∨ b = '1') then none
    else if k = 'z' then asmFlagTerms (k :: seen) { fl with zero := b == '1' } rest
    else if k = 's' then asmFlagTerms (k :: seen) { fl with subtract := b == '1' } rest
    else if k = 'h' then asmFlagTerms (k :: seen) { fl with halfCarry := b == '1' } rest
    else if k = 'c' then asmFlagTerms (k :: seen) { fl with carry := b == '1' } rest
    else none
  | _, _, _ :: _ => none

/-- The source's call notation is an equivalent spelling (R58): take the parentheses off the arguments. Any parenthesis left after this
is no part of a line. -/
def asmArguments : List AsmToken → List AsmToken
  | .lpar :: rest => if rest.getLast? = some .rpar then rest.dropLast else .lpar :: rest
  | ts => ts

/-- A line with an operation: its mnemonic and its arguments (R58). -/
def asmOperation (mnemonic : List Char) (args : List AsmToken) : Option AsmLine :=
  if mnemonic = "GetFlags".toList then (match args with | [] => some .getFlags | _ :: _ => none)
  else if mnemonic = "SetFlags".toList then (asmFlagTerms [] ⟨false, false, false, false⟩ args).map .setFlags
  else
    match args with
    | [.word r] =>
      if mnemonic = "ReadPair".toList then (asmReg r).map .readPair
      else if mnemonic = "ReadCell".toList then (asmReg r).map .readCell
      else none
    | [.word r, .comma, .word v] =>
      match asmReg r, asmNumeral v with
      | some reg, some n =>
        if mnemonic = "WritePair".toList then some (.writePair reg n)
        else if mnemonic = "WriteCell".toList then some (.writeCell reg n)
        else none
      | _, _ => none
    | _ => none

/-- What the text of one line says: no operation (blank or a comment), an operation, or nothing readable. -/
inductive AsmText where
  | empty
  | line (l : AsmLine)
  | unreadable
  deriving DecidableEq, Repr

/-- Read one line. -/
def parseLine (text : List Char) : AsmText :=
  match asmTokens [] text with
  | [] => .empty
  | .word m :: rest =>
    match asmOperation m (asmArguments rest) with
    | some l => .line l
    | none => .unreadable
  | _ :: _ => .unreadable

/-- Cut a text into lines, `l` being the line read so far, last character first. -/
def textLines : List Char → List Char → List (List Char)
  | l, [] => [l.reverse]
  | l, ch :: rest => if ch = '\n' then l.reverse :: textLines [] rest else textLines (ch :: l) rest

/-- Assemble lines, one operation per line (R58); a line that cannot be read, or whose numeral does not fit, refuses the whole. -/
def assembleLines : List (List Char) → Option (List Request)
  | [] => some []
  | t :: ts =>
    match parseLine t with
    | .empty => assembleLines ts
    | .line l =>
      match assemble l, assembleLines ts with
      | some r, some rs => some (r :: rs)
      | _, _ => none
    | .unreadable => none

/-- Assemble a program text. -/
def assembleText (text : List Char) : Option (List Request) := assembleLines (textLines [] text)

end Sys2Proof.Machine
end

