-- ==== Sys2Proof/Machine/Run.lean ====
section
/-! DEFINITION. Runs of the block (R100): from reset or a given start state (R94), a finite list of operations performed in
list order, one per step. -/

namespace Sys2Proof.Machine

/-- The start of a run: eight start bytes (R94) and the operations the issuer is to present, in order (R24). -/
def launch (start : Cells) (ops : List Request) : State :=
  { State.reset with cells := start, inputs := ops.map .op }

/-- `k` steps, stopping at the first that gives no next state. -/
def runSteps : Nat → State → Answer
  | 0, s => .next s
  | k + 1, s =>
    match step s with
    | .next t => runSteps k t
    | .fault r => .fault r
    | .refused r => .refused r

/-- The run of a list of operations (R100). Its result is the final cells with the responses and the fault record. -/
def runProgram (start : Cells) (ops : List Request) : Answer := runSteps ops.length (launch start ops)

end Sys2Proof.Machine
end

