-- ==== Sys2Proof/Safety.lean ====
section
/-! DEFINITION. What a step may be said to do, in the words claims use; when a run is free of errors (R82); and the agreement
between the records of a run that every step keeps. -/

namespace Sys2Proof.Machine

/-- The responses of a run, one per operation, oldest first (R100). -/
def State.responses (s : State) : List Response := s.completed.map (·.response)

/-- The output ports agree with the response they carry (R55). The ports the response does not name may hold anything. -/
def Carries (o : OutPorts) (r : Response) : Prop :=
  match r with
  | .word v => o.rdata = v ∧ o.err = false
  | .byte v => o.rdata = 0#8 ++ v ∧ o.err = false
  | .flagsR fl => o.fout = finOfFlags fl ∧ o.err = false
  | .ack => o.err = false
  | .err _ => o.err = true

/-- From `s` to `t` one operation was performed: it gave the response `r`, left the cells at `c`, added `faults` to the fault
record, and changed nothing else (`freeIndex`, the model's own, apart). -/
structure Performed (s t : State) (r : Response) (c : Cells) (faults : List FaultEntry) : Prop where
  cells : t.cells = c
  inputs : t.inputs = s.inputs
  position : t.position = s.position + 1
  completed : ∃ o, Carries o r ∧ t.completed = s.completed ++ [{ response := r, ports := o }]
  faultRecord : t.faultRecord = s.faultRecord ++ faults

/-- In `s` the instruction completes without an error: it answers a next state, with the response `r` and the cells `c`. -/
def CompletesWith (i : Instr) (s : State) (r : Response) (c : Cells) : Prop :=
  ∃ t, exec i s = .next t ∧ Performed s t r c []

/-- In `s` the instruction raises InvalidRegisterIdentifier for `rid`: it answers a next state with no cell changed, the
response Err, and the error recorded (R80, R82) under the number of the step, the first step being 1 as in 95_test_vectors.md P3 (the
numbering is log entry 9, DEDUCED). -/
def RaisesInvalid (i : Instr) (s : State) (rid : RegId) : Prop :=
  ∃ t, exec i s = .next t ∧
    Performed s t (.err (.invalidRegisterIdentifier rid)) s.cells
      [{ step := s.position + 1, error := .invalidRegisterIdentifier rid }]

/-- The Err responses among completed steps, each with its step number, the first step having number `n`; a run
begins with `n = 1` (95_test_vectors.md P3, log entry 9). -/
def errorsFrom : Nat → List Completion → List FaultEntry
  | _, [] => []
  | n, c :: cs =>
    match c.response with
    | .err e => { step := n, error := e } :: errorsFrom (n + 1) cs
    | .word _ => errorsFrom (n + 1) cs
    | .byte _ => errorsFrom (n + 1) cs
    | .flagsR _ => errorsFrom (n + 1) cs
    | .ack => errorsFrom (n + 1) cs

/-- The records of a run agree: the position counts the completed steps (R24), the fault record holds exactly their Err responses
(R82), and every completed step's ports carry its response (R55). -/
structure State.Coherent (s : State) : Prop where
  position : s.position = s.completed.length
  faults : s.faultRecord = errorsFrom 1 s.completed
  ports : ∀ c ∈ s.completed, Carries c.ports c.response

/-- A run without error: its fault record is empty (R82). -/
def State.errorFree (s : State) : Prop := s.faultRecord = []

/-- Two answers agree but for the inputs `later`, which the first still has before it: the same cells, records and responses, or the
same reason to stop. What unnamed ports carry is left out: no rule reads it (R55). -/
def AgreeButFor (later : List Input) (o o' : Answer) : Prop :=
  match o, o' with
  | .next t, .next u => t.inputs = u.inputs ++ later ∧ t.cells = u.cells ∧ t.position = u.position ∧
      t.responses = u.responses ∧ t.faultRecord = u.faultRecord
  | .fault a, .fault b => a = b
  | .refused a, .refused b => a = b
  | _, _ => False

/-- The 256 command words (R54). -/
def commandWords : List Byte := (List.range 256).map (BitVec.ofNat 8)

end Sys2Proof.Machine
end

