-- ==== Sys2Proof/Certificates/Slice0/Obligations.lean ====
section
/-! DEFINITION. The statements for the provers. Each docstring names the rule of spec/ it formalises. -/

open Sys2Proof Sys2Proof.Machine

/-! ## Encoding -/

/-- Decoding the ports that encode a well-formed instruction gives it back, with every operand (R47, R48, R49, R53, R54). -/
def Obligations.DecodeUndoesEncode : Prop :=
  ∀ i : Instr, i.wellFormed = true → decode (encode i) = i

/-- What decodes is well formed, and the command word is a word of its instruction's row of the opcode table and of no other row
(R48, R53, R54). -/
def Obligations.DecodedWordLiesInOneRow : Prop :=
  ∀ r : Request, (decode r).wellFormed = true ∧ (decode r).row ∈ opcodeTable ∧
    ∀ row ∈ opcodeTable, row.covers r.cmd = true ↔ row = (decode r).row

/-- Encoding what was decoded gives the same command word, but for the 16 words of GetFlags and of SetFlags, which give the canonical
0x20 and 0x30 (R56). -/
def Obligations.EncodeGivesTheCanonicalWord : Prop :=
  ∀ r : Request, (encode (decode r)).cmd =
    if r.cmd &&& 0xF0 = 0x20 then 0x20 else if r.cmd &&& 0xF0 = 0x30 then 0x30 else r.cmd

/-- Operand assembly (R49): what each operation takes from the ports, and that it takes nothing else. -/
def Obligations.OperandsComeFromTheirPorts : Prop :=
  ∀ (rid : RegId) (wdata : Word) (fin : FlagBits),
    decode ⟨0#1 ++ 0b000#3 ++ rid, wdata, fin⟩ = .readPair rid ∧
    decode ⟨0#1 ++ 0b001#3 ++ rid, wdata, fin⟩ = .writePair rid wdata ∧
    decode ⟨0#1 ++ 0b010#3 ++ rid, wdata, fin⟩ = .getFlags ∧
    decode ⟨0#1 ++ 0b011#3 ++ rid, wdata, fin⟩ =
      .setFlags { zero := fin[3], subtract := fin[2], halfCarry := fin[1], carry := fin[0] } ∧
    decode ⟨0#1 ++ 0b100#3 ++ rid, wdata, fin⟩ = .readCell rid ∧
    decode ⟨0#1 ++ 0b101#3 ++ rid, wdata, fin⟩ = .writeCell rid (wdata.extractLsb' 0 8)

/-- Words of 95_test_vectors.md with their operations (V1, V5, V13, V30, V32, V47, V51, V60, V61, V64). -/
def Obligations.VectorWordsDecode : Prop :=
  decode ⟨0x08, 0, 0⟩ = .readPair 0x8 ∧
  decode ⟨0x00, 0, 0⟩ = .readPair 0x0 ∧
  decode ⟨0x1B, 0xBEEF, 0⟩ = .writePair 0xB 0xBEEF ∧
  decode ⟨0x2F, 0, 0⟩ = .getFlags ∧
  decode ⟨0x30, 0, 0b0101⟩ = .setFlags { zero := false, subtract := true, halfCarry := false, carry := true } ∧
  decode ⟨0x47, 0, 0⟩ = .readCell 0x7 ∧
  decode ⟨0x50, 0xFF00, 0⟩ = .writeCell 0x0 0x00 ∧
  decode ⟨0x60, 0, 0⟩ = .reservedOp 0x60 ∧
  decode ⟨0x7F, 0, 0⟩ = .reservedOp 0x7F ∧
  decode ⟨0x8B, 0, 0⟩ = .reservedBit7 0x8B

/-- The register-identifier codes (R50): the sixteen codes, and the two selectors agree with them. -/
def Obligations.RegisterIdentifierCodes : Prop :=
  (List.range 16).map (fun n => regNameOf (BitVec.ofNat 4 n)) =
    [some (.cell .a), some (.cell .b), some (.cell .c), some (.cell .d), some (.cell .e), some (.cell .f), some (.cell .h),
      some (.cell .l), some (.pair .af), some (.pair .bc), some (.pair .de), some (.pair .hl), none, none, none, none] ∧
  (∀ rid n, regNameOf rid = some n ↔ rid = n.rid) ∧
  (∀ rid r, cellOf rid = some r ↔ regNameOf rid = some (.cell r)) ∧
  (∀ rid x, pairOf rid = some x ↔ ∃ p, regNameOf rid = some (.pair p) ∧ x = (highCell p, lowCell p))

/-- The 256 command words sorted by what a step makes of them (R60), in every state and at every operand: 128 and 32 refused, 16 of each
operation, of each cell operation's 8 and of each pair operation's 12 raising the error, no flag word raising it. -/
def Obligations.CommandWordsSorted : Prop :=
  ∀ (s : State) (wdata : Word) (fin : FlagBits),
    (commandWords.filter (fun w => w[7])).length = 128 ∧
    (commandWords.filter (fun w => !w[7] && (opField w == 0b110 || opField w == 0b111))).length = 32 ∧
    (∀ n, n < 0x10 → decode ⟨BitVec.ofNat 8 (0x00 + n), wdata, fin⟩ = .readPair (BitVec.ofNat 4 n) ∧
      decode ⟨BitVec.ofNat 8 (0x10 + n), wdata, fin⟩ = .writePair (BitVec.ofNat 4 n) wdata ∧
      decode ⟨BitVec.ofNat 8 (0x20 + n), wdata, fin⟩ = .getFlags ∧
      decode ⟨BitVec.ofNat 8 (0x30 + n), wdata, fin⟩ = .setFlags (flagsOfFin fin) ∧
      decode ⟨BitVec.ofNat 8 (0x40 + n), wdata, fin⟩ = .readCell (BitVec.ofNat 4 n) ∧
      decode ⟨BitVec.ofNat 8 (0x50 + n), wdata, fin⟩ = .writeCell (BitVec.ofNat 4 n) (cellOperand wdata)) ∧
    (∀ n, n < 0x08 → RaisesInvalid (decode ⟨BitVec.ofNat 8 n, wdata, fin⟩) s (BitVec.ofNat 4 n)) ∧
    (∀ n, 0x08 ≤ n → n < 0x0C → ∃ v, CompletesWith (decode ⟨BitVec.ofNat 8 n, wdata, fin⟩) s (.word v) s.cells) ∧
    (∀ n, 0x0C ≤ n → n < 0x18 → RaisesInvalid (decode ⟨BitVec.ofNat 8 n, wdata, fin⟩) s (BitVec.ofNat 4 n)) ∧
    (∀ n, 0x18 ≤ n → n < 0x1C → ∃ c, CompletesWith (decode ⟨BitVec.ofNat 8 n, wdata, fin⟩) s .ack c) ∧
    (∀ n, 0x1C ≤ n → n < 0x20 → RaisesInvalid (decode ⟨BitVec.ofNat 8 n, wdata, fin⟩) s (BitVec.ofNat 4 n)) ∧
    (∀ n, 0x20 ≤ n → n < 0x30 → ∃ fl, CompletesWith (decode ⟨BitVec.ofNat 8 n, wdata, fin⟩) s (.flagsR fl) s.cells) ∧
    (∀ n, 0x30 ≤ n → n < 0x40 → ∃ c, CompletesWith (decode ⟨BitVec.ofNat 8 n, wdata, fin⟩) s .ack c) ∧
    (∀ n, 0x40 ≤ n → n < 0x48 → ∃ v, CompletesWith (decode ⟨BitVec.ofNat 8 n, wdata, fin⟩) s (.byte v) s.cells) ∧
    (∀ n, 0x48 ≤ n → n < 0x50 → RaisesInvalid (decode ⟨BitVec.ofNat 8 n, wdata, fin⟩) s (BitVec.ofNat 4 n)) ∧
    (∀ n, 0x50 ≤ n → n < 0x58 → ∃ c, CompletesWith (decode ⟨BitVec.ofNat 8 n, wdata, fin⟩) s .ack c) ∧
    (∀ n, 0x58 ≤ n → n < 0x60 → RaisesInvalid (decode ⟨BitVec.ofNat 8 n, wdata, fin⟩) s (BitVec.ofNat 4 n)) ∧
    (∀ n, 0x60 ≤ n → n < 0x100 →
      exec (decode ⟨BitVec.ofNat 8 n, wdata, fin⟩) s = .refused (.reservedCommandWord (BitVec.ofNat 8 n)))

/-! ## The six operations, and their frames

`CompletesWith i s r c` says that exec answers a next state, with the response `r`, the cells `c`, and nothing else changed. -/

/-- ReadPair (R63): its four words, the value of each pair, no cell changed, and the error for every other rid. -/
def Obligations.ReadPairReturnsThePair : Prop :=
  ∀ (s : State) (wdata : Word) (fin : FlagBits),
    (decode ⟨0x08, wdata, fin⟩ = .readPair 0x8 ∧ CompletesWith (.readPair 0x8) s (.word (s.cells.a ++ s.cells.f)) s.cells) ∧
    (decode ⟨0x09, wdata, fin⟩ = .readPair 0x9 ∧ CompletesWith (.readPair 0x9) s (.word (s.cells.b ++ s.cells.c)) s.cells) ∧
    (decode ⟨0x0A, wdata, fin⟩ = .readPair 0xA ∧ CompletesWith (.readPair 0xA) s (.word (s.cells.d ++ s.cells.e)) s.cells) ∧
    (decode ⟨0x0B, wdata, fin⟩ = .readPair 0xB ∧ CompletesWith (.readPair 0xB) s (.word (s.cells.h ++ s.cells.l)) s.cells) ∧
    ∀ rid : RegId, rid ≠ 0x8 → rid ≠ 0x9 → rid ≠ 0xA → rid ≠ 0xB → RaisesInvalid (.readPair rid) s rid

/-- WritePair (R64): its four words, both bytes of each pair written and no other cell, and the error for every other rid. -/
def Obligations.WritePairWritesBothBytes : Prop :=
  ∀ (s : State) (v : Word) (fin : FlagBits),
    (decode ⟨0x18, v, fin⟩ = .writePair 0x8 v ∧
      CompletesWith (.writePair 0x8 v) s .ack { s.cells with a := v.extractLsb' 8 8, f := v.extractLsb' 0 8 }) ∧
    (decode ⟨0x19, v, fin⟩ = .writePair 0x9 v ∧
      CompletesWith (.writePair 0x9 v) s .ack { s.cells with b := v.extractLsb' 8 8, c := v.extractLsb' 0 8 }) ∧
    (decode ⟨0x1A, v, fin⟩ = .writePair 0xA v ∧
      CompletesWith (.writePair 0xA v) s .ack { s.cells with d := v.extractLsb' 8 8, e := v.extractLsb' 0 8 }) ∧
    (decode ⟨0x1B, v, fin⟩ = .writePair 0xB v ∧
      CompletesWith (.writePair 0xB v) s .ack { s.cells with h := v.extractLsb' 8 8, l := v.extractLsb' 0 8 }) ∧
    ∀ rid : RegId, rid ≠ 0x8 → rid ≠ 0x9 → rid ≠ 0xA → rid ≠ 0xB → RaisesInvalid (.writePair rid v) s rid

/-- GetFlags (R67): its sixteen words, the four flags as bits 7, 6, 5, 4 of F, no cell changed, no error. -/
def Obligations.GetFlagsReturnsTheFlagBits : Prop :=
  ∀ (s : State) (rid : RegId) (wdata : Word) (fin : FlagBits),
    decode ⟨0b0010#4 ++ rid, wdata, fin⟩ = .getFlags ∧
    CompletesWith .getFlags s
      (.flagsR { zero := s.cells.f[7], subtract := s.cells.f[6], halfCarry := s.cells.f[5],
                 carry := s.cells.f[4] }) s.cells

/-- SetFlags (R69): its sixteen words, F overwritten with the four flags over four zeros, no other cell changed, no error. -/
def Obligations.SetFlagsOverwritesF : Prop :=
  ∀ (s : State) (rid : RegId) (wdata : Word) (z n h c : Bool),
    decode ⟨0b0011#4 ++ rid, wdata, BitVec.ofBool z ++ BitVec.ofBool n ++ BitVec.ofBool h ++ BitVec.ofBool c⟩ =
      .setFlags { zero := z, subtract := n, halfCarry := h, carry := c } ∧
    CompletesWith (.setFlags { zero := z, subtract := n, halfCarry := h, carry := c }) s .ack
      { s.cells with f := BitVec.ofBool z ++ BitVec.ofBool n ++ BitVec.ofBool h ++ BitVec.ofBool c ++ 0b0000#4 }

/-- ReadCell (R73): its eight words, the byte of each cell, no cell changed, and the error for every other rid. -/
def Obligations.ReadCellReturnsTheCell : Prop :=
  ∀ (s : State) (wdata : Word) (fin : FlagBits),
    (decode ⟨0x40, wdata, fin⟩ = .readCell 0x0 ∧ CompletesWith (.readCell 0x0) s (.byte s.cells.a) s.cells) ∧
    (decode ⟨0x41, wdata, fin⟩ = .readCell 0x1 ∧ CompletesWith (.readCell 0x1) s (.byte s.cells.b) s.cells) ∧
    (decode ⟨0x42, wdata, fin⟩ = .readCell 0x2 ∧ CompletesWith (.readCell 0x2) s (.byte s.cells.c) s.cells) ∧
    (decode ⟨0x43, wdata, fin⟩ = .readCell 0x3 ∧ CompletesWith (.readCell 0x3) s (.byte s.cells.d) s.cells) ∧
    (decode ⟨0x44, wdata, fin⟩ = .readCell 0x4 ∧ CompletesWith (.readCell 0x4) s (.byte s.cells.e) s.cells) ∧
    (decode ⟨0x45, wdata, fin⟩ = .readCell 0x5 ∧ CompletesWith (.readCell 0x5) s (.byte s.cells.f) s.cells) ∧
    (decode ⟨0x46, wdata, fin⟩ = .readCell 0x6 ∧ CompletesWith (.readCell 0x6) s (.byte s.cells.h) s.cells) ∧
    (decode ⟨0x47, wdata, fin⟩ = .readCell 0x7 ∧ CompletesWith (.readCell 0x7) s (.byte s.cells.l) s.cells) ∧
    ∀ rid : RegId, 8 ≤ rid.toNat → RaisesInvalid (.readCell rid) s rid

/-- WriteCell (R74): its eight words, wdata[15:8] without effect, one cell overwritten and no other, and the error for every other
rid. -/
def Obligations.WriteCellOverwritesOneCell : Prop :=
  ∀ (s : State) (v high : Byte) (fin : FlagBits),
    (decode ⟨0x50, high ++ v, fin⟩ = .writeCell 0x0 v ∧ CompletesWith (.writeCell 0x0 v) s .ack { s.cells with a := v }) ∧
    (decode ⟨0x51, high ++ v, fin⟩ = .writeCell 0x1 v ∧ CompletesWith (.writeCell 0x1 v) s .ack { s.cells with b := v }) ∧
    (decode ⟨0x52, high ++ v, fin⟩ = .writeCell 0x2 v ∧ CompletesWith (.writeCell 0x2 v) s .ack { s.cells with c := v }) ∧
    (decode ⟨0x53, high ++ v, fin⟩ = .writeCell 0x3 v ∧ CompletesWith (.writeCell 0x3 v) s .ack { s.cells with d := v }) ∧
    (decode ⟨0x54, high ++ v, fin⟩ = .writeCell 0x4 v ∧ CompletesWith (.writeCell 0x4 v) s .ack { s.cells with e := v }) ∧
    (decode ⟨0x55, high ++ v, fin⟩ = .writeCell 0x5 v ∧ CompletesWith (.writeCell 0x5 v) s .ack { s.cells with f := v }) ∧
    (decode ⟨0x56, high ++ v, fin⟩ = .writeCell 0x6 v ∧ CompletesWith (.writeCell 0x6 v) s .ack { s.cells with h := v }) ∧
    (decode ⟨0x57, high ++ v, fin⟩ = .writeCell 0x7 v ∧ CompletesWith (.writeCell 0x7 v) s .ack { s.cells with l := v }) ∧
    ∀ rid : RegId, 8 ≤ rid.toNat → RaisesInvalid (.writeCell rid v) s rid

/-- Reserved words (R53): 128 with cmd[7] = 1 and 32 more with op 110 or 111. Each decodes to its reserved row, which refuses in
every state, and so does the step that presents it. -/
def Obligations.ReservedWordsAreRefused : Prop :=
  (commandWords.filter (fun w => w[7])).length = 128 ∧
  (commandWords.filter (fun w => !w[7] && (opField w == 0b110 || opField w == 0b111))).length = 32 ∧
  (∀ (cmd : Byte) (s : State), exec (.reservedOp cmd) s = .refused (.reservedCommandWord cmd)) ∧
  (∀ (cmd : Byte) (s : State), exec (.reservedBit7 cmd) s = .refused (.reservedCommandWord cmd)) ∧
  ∀ (q : Request) (s : State) (rest : List Input),
    (q.cmd[7] = true ∨ q.cmd.extractLsb' 4 3 = 0b110 ∨ q.cmd.extractLsb' 4 3 = 0b111) →
      (decode q = .reservedBit7 q.cmd ∨ decode q = .reservedOp q.cmd) ∧
      step { s with inputs := .op q :: rest } = .refused (.reservedCommandWord q.cmd)

/-- Which rid each operation accepts (R51). -/
def Obligations.AcceptedIdentifiers : Prop :=
  ∀ (s : State) (rid : RegId) (v : Word) (b : Byte),
    ((∃ r c, CompletesWith (.readPair rid) s r c) ↔ 8 ≤ rid.toNat ∧ rid.toNat ≤ 11) ∧
    ((∃ r c, CompletesWith (.writePair rid v) s r c) ↔ 8 ≤ rid.toNat ∧ rid.toNat ≤ 11) ∧
    ((∃ r c, CompletesWith (.readCell rid) s r c) ↔ rid.toNat ≤ 7) ∧
    ((∃ r c, CompletesWith (.writeCell rid b) s r c) ↔ rid.toNat ≤ 7) ∧
    (RaisesInvalid (.readPair rid) s rid ↔ ¬ (8 ≤ rid.toNat ∧ rid.toNat ≤ 11)) ∧
    (RaisesInvalid (.writePair rid v) s rid ↔ ¬ (8 ≤ rid.toNat ∧ rid.toNat ≤ 11)) ∧
    (RaisesInvalid (.readCell rid) s rid ↔ ¬ rid.toNat ≤ 7) ∧
    (RaisesInvalid (.writeCell rid b) s rid ↔ ¬ rid.toNat ≤ 7) ∧
    (∀ (wdata : Word) (fin : FlagBits) (any : RegId),
      ¬ RaisesInvalid (decode ⟨0b0010#4 ++ rid, wdata, fin⟩) s any ∧ ¬ RaisesInvalid (decode ⟨0b0011#4 ++ rid, wdata, fin⟩) s any ∧
      decode ⟨0b0010#4 ++ rid, wdata, fin⟩ = decode ⟨0b0010#4 ++ any, wdata, fin⟩ ∧
      decode ⟨0b0011#4 ++ rid, wdata, fin⟩ = decode ⟨0b0011#4 ++ any, wdata, fin⟩)

/-! ## The error -/

/-- The cause of the error (R78): exactly the listed command words raise it, with the word's rid, in every state and at every operand. -/
def Obligations.InvalidIdentifierWords : Prop :=
  ∀ (q : Request) (s : State) (rid : RegId),
    RaisesInvalid (decode q) s rid ↔
      rid = q.cmd.extractLsb' 0 4 ∧
      (q.cmd.toNat ≤ 0x07 ∨ (0x0C ≤ q.cmd.toNat ∧ q.cmd.toNat ≤ 0x0F) ∨
        (0x10 ≤ q.cmd.toNat ∧ q.cmd.toNat ≤ 0x17) ∨ (0x1C ≤ q.cmd.toNat ∧ q.cmd.toNat ≤ 0x1F) ∨
        (0x48 ≤ q.cmd.toNat ∧ q.cmd.toNat ≤ 0x4F) ∨ (0x58 ≤ q.cmd.toNat ∧ q.cmd.toNat ≤ 0x5F))

/-- What the error does: wherever an operation responds Err, the cells after the step are the cells before it, the err port is 1 and
the response is the only one of the step (R80); and the error is recorded (R82), under the number of the step, the first step being
1 as in 95_test_vectors.md P3 (the numbering is log entry 9, DEDUCED). -/
def Obligations.ErrorChangesNoCell : Prop :=
  ∀ (i : Instr) (s t : State) (e : BlockError),
    exec i s = .next t → t.responses = s.responses ++ [.err e] →
      t.cells = s.cells ∧ t.inputs = s.inputs ∧
      (∃ o, o.err = true ∧ t.completed = s.completed ++ [{ response := .err e, ports := o }]) ∧
      t.faultRecord = s.faultRecord ++ [{ step := s.position + 1, error := e }]

/-- The block goes on after an error (R81, R86): whatever an operation does in a state, it does after an error in that
state, a second error included. -/
def Obligations.BlockContinuesAfterError : Prop :=
  ∀ (i j : Instr) (s : State) (rid : RegId), RaisesInvalid i s rid →
    ∃ t, exec i s = .next t ∧
      (∀ r c, CompletesWith j s r c → CompletesWith j t r c) ∧
      (∀ rid', RaisesInvalid j s rid' → RaisesInvalid j t rid') ∧
      (∀ x, exec j s = .refused x → exec j t = .refused x)

/-- The order of the checks (R85): reserved word, then rid, then completion; one outcome each. -/
def Obligations.OutcomePriority : Prop :=
  ∀ (q : Request) (s : State),
    ((q.cmd[7] = true ∨ 6 ≤ (q.cmd.extractLsb' 4 3).toNat) →
      exec (decode q) s = .refused (.reservedCommandWord q.cmd)) ∧
    (q.cmd[7] = false → (q.cmd.extractLsb' 4 3).toNat < 6 →
      (((q.cmd.extractLsb' 4 3).toNat < 2 ∧ ¬ (8 ≤ (q.cmd.extractLsb' 0 4).toNat ∧ (q.cmd.extractLsb' 0 4).toNat ≤ 11)) ∨
        (4 ≤ (q.cmd.extractLsb' 4 3).toNat ∧ ¬ (q.cmd.extractLsb' 0 4).toNat ≤ 7)) →
      RaisesInvalid (decode q) s (q.cmd.extractLsb' 0 4)) ∧
    (q.cmd[7] = false → (q.cmd.extractLsb' 4 3).toNat < 6 →
      ¬ (((q.cmd.extractLsb' 4 3).toNat < 2 ∧ ¬ (8 ≤ (q.cmd.extractLsb' 0 4).toNat ∧ (q.cmd.extractLsb' 0 4).toNat ≤ 11)) ∨
        (4 ≤ (q.cmd.extractLsb' 4 3).toNat ∧ ¬ (q.cmd.extractLsb' 0 4).toNat ≤ 7)) →
      ∃ r c, CompletesWith (decode q) s r c)

/-! ## Responses -/

/-- Every completed step gives exactly one response, of the kind R55 gives its operation, and the ports R55 maps it to. -/
def Obligations.ResponsesAndPorts : Prop :=
  ∀ (i : Instr) (s t : State), exec i s = .next t →
    ∃ r o, t.completed = s.completed ++ [{ response := r, ports := o }] ∧
      (match i with
        | .readPair rid => (∃ v, r = .word v) ∨ r = .err (.invalidRegisterIdentifier rid)
        | .writePair rid _ => r = .ack ∨ r = .err (.invalidRegisterIdentifier rid)
        | .getFlags => ∃ fl, r = .flagsR fl
        | .setFlags _ => r = .ack
        | .readCell rid => (∃ v, r = .byte v) ∨ r = .err (.invalidRegisterIdentifier rid)
        | .writeCell rid _ => r = .ack ∨ r = .err (.invalidRegisterIdentifier rid)
        | .reservedOp _ => False
        | .reservedBit7 _ => False) ∧
      (match r with
        | .word v => o.rdata = v ∧ o.err = false
        | .byte v => o.rdata = 0x00#8 ++ v ∧ o.err = false
        | .flagsR fl => o.fout[3] = fl.zero ∧ o.fout[2] = fl.subtract ∧ o.fout[1] = fl.halfCarry ∧
            o.fout[0] = fl.carry ∧ o.err = false
        | .ack => o.err = false
        | .err _ => o.err = true)

/-- Every operation completes in its step with a response, or is refused for its reserved word (R40). -/
def Obligations.EveryOperationCompletesOrIsRefused : Prop :=
  ∀ (i : Instr) (s : State),
    (∃ t r c fs, exec i s = .next t ∧ Performed s t r c fs) ∨
    (∃ cmd, (i = .reservedOp cmd ∨ i = .reservedBit7 cmd) ∧ exec i s = .refused (.reservedCommandWord cmd))

/-! ## The step -/

/-- A step performs the operation decoded from the ports presented next, in the state with that input taken off the list and
nothing else changed (R46). -/
def Obligations.StepRunsTheDecodedInstruction : Prop :=
  ∀ (s : State) (q : Request) (rest : List Input), s.inputs = .op q :: rest →
    step s = exec (decode q) { s with inputs := rest }

/-- A command word placed where the step takes its next input is what the step runs. Model's own interface: log entries 3 and 4. -/
def Obligations.PlacedWordIsRun : Prop :=
  ∀ (s : State) (w : Nat) (i : Instr), decodeTableWord 8 w = some i →
    step (s.withFetchWord 8 w) = exec i { s with inputs := s.inputs.tail }

/-- Exactly one operation per step (R46): a step that answers a next state has taken one input and, unless that was the reset event,
performed one operation and given one response. -/
def Obligations.OneOperationPerStep : Prop :=
  ∀ s t : State, step s = .next t →
    (∃ q rest r c faults, s.inputs = .op q :: rest ∧ exec (decode q) { s with inputs := rest } = .next t ∧
      Performed { s with inputs := rest } t r c faults) ∨
    (∃ rest, s.inputs = .reset :: rest ∧ t = { s with inputs := rest, cells := Cells.reset })

/-- Two operations at once are refused, not interleaved (R43; how they are presented is the model's: log entry 8). -/
def Obligations.ConcurrentIssueIsRefused : Prop :=
  ∀ (s : State) (q₁ q₂ : Request) (rest : List Input),
    step { s with inputs := .contended q₁ q₂ :: rest } = .refused .concurrentIssue

/-- With nothing presented the run has ended (R100; that the step then stops with a fault is the model's choice: log entry 6). -/
def Obligations.RunEndsWithNothingPresented : Prop :=
  ∀ s : State, step { s with inputs := [] } = .fault .runEnded

/-! ## Reset -/

/-- The reset values (R93), and the views derived from them. -/
def Obligations.ResetValues : Prop :=
  (∀ r, State.reset.cells.get r = 0x00) ∧ (∀ p, State.reset.cells.pairView p = 0x0000) ∧
  State.reset.cells.flagView = { zero := false, subtract := false, halfCarry := false, carry := false } ∧
  State.reset.cells.f.extractLsb' 0 4 = 0b0000

/-- The reset event (R91): before the first operation it sets every cell to 0x00 and does nothing else; after it, it is refused. -/
def Obligations.ResetEvent : Prop :=
  ∀ (s : State) (rest : List Input),
    (s.position = 0 →
      step { s with inputs := .reset :: rest } =
        .next { s with inputs := rest, cells := ⟨0x00, 0x00, 0x00, 0x00, 0x00, 0x00, 0x00, 0x00⟩ }) ∧
    (s.position ≠ 0 → step { s with inputs := .reset :: rest } = .refused .resetInRun)

/-! ## Invariants and whole-machine rules -/

/-- Every step keeps the records of the run in agreement (R24, R55, R82): the position counts the completed steps, the fault
record holds exactly the Err responses with their step numbers, and the ports carry the responses. -/
def Obligations.StepKeepsRecordsCoherent : Prop :=
  ∀ s t : State, s.Coherent → step s = .next t → t.Coherent

/-- The records agree at reset and at the start of every run. -/
def Obligations.RecordsCoherentAtStart : Prop :=
  State.reset.Coherent ∧ ∀ (start : Cells) (ops : List Request), (launch start ops).Coherent

/-- Nothing clears the fault record or takes back a response (R82, R100), and a step whose operation raises the error records it. -/
def Obligations.FaultRecordIsNeverCleared : Prop :=
  (∀ s t : State, step s = .next t → s.faultRecord <+: t.faultRecord ∧ s.completed <+: t.completed) ∧
  ∀ (s : State) (q : Request) (rest : List Input) (rid : RegId), s.inputs = .op q :: rest → RaisesInvalid (decode q) s rid →
    ∃ t, step s = .next t ∧ t.faultRecord = s.faultRecord ++ [{ step := s.position + 1, error := .invalidRegisterIdentifier rid }]

/-- What can change a cell (R29): WritePair of a pair, SetFlags, WriteCell of a cell, and reset; nothing else. -/
def Obligations.OnlyWritesChangeCells : Prop :=
  ∀ s t : State, step s = .next t → t.cells ≠ s.cells →
    (∃ rest, s.inputs = .reset :: rest) ∨
    (∃ q rest, s.inputs = .op q :: rest ∧
      ((∃ (p : PairName) (v : Word), decode q = .writePair p.rid v) ∨ (∃ fl, decode q = .setFlags fl) ∨
        (∃ (r : CellName) (v : Byte), decode q = .writeCell r.rid v)))

/-- What can change F, and so the flags (R22): SetFlags, WriteCell F, WritePair AF, and reset; no other operation. -/
def Obligations.OnlyThreeOperationsChangeF : Prop :=
  ∀ s t : State, step s = .next t → t.cells.f ≠ s.cells.f →
    (∃ rest, s.inputs = .reset :: rest) ∨
    (∃ q rest, s.inputs = .op q :: rest ∧
      ((∃ fl, decode q = .setFlags fl) ∨ (∃ v, decode q = .writeCell 0x5 v) ∨ (∃ v, decode q = .writePair 0x8 v)))

/-- No hidden state (R27): what an operation does depends on the eight cells alone, and on nothing that happened before. -/
def Obligations.OnlyTheCellsMatter : Prop :=
  ∀ (i : Instr) (s₁ s₂ : State), s₁.cells = s₂.cells →
    (∀ r c, CompletesWith i s₁ r c ↔ CompletesWith i s₂ r c) ∧
    (∀ rid, RaisesInvalid i s₁ rid ↔ RaisesInvalid i s₂ rid) ∧
    (∀ x, exec i s₁ = .refused x ↔ exec i s₂ = .refused x)

/-- Independence (R16): an operation that writes a cell leaves every cell its rule does not name. -/
def Obligations.UnnamedCellsAreUnchanged : Prop :=
  ∀ s : State,
    (∀ (r q : CellName) (v : Byte), q ≠ r → ∃ t, exec (.writeCell r.rid v) s = .next t ∧ t.cells.get q = s.cells.get q) ∧
    (∀ (p : PairName) (q : CellName) (v : Word), q ≠ highCell p → q ≠ lowCell p →
      ∃ t, exec (.writePair p.rid v) s = .next t ∧ t.cells.get q = s.cells.get q) ∧
    (∀ (fl : Flags) (q : CellName), q ≠ .f → ∃ t, exec (.setFlags fl) s = .next t ∧ t.cells.get q = s.cells.get q)

/-! ## Laws of the families -/

/-- Composition and split (R62): the formulas, and that they are inverses. -/
def Obligations.ComposeAndSplitAreInverse : Prop :=
  ∀ (hi lo : Byte) (v : Word),
    compose hi lo = hi ++ lo ∧ splitHi v = v.extractLsb' 8 8 ∧ splitLo v = v.extractLsb' 0 8 ∧
    compose (splitHi v) (splitLo v) = v ∧ splitHi (compose hi lo) = hi ∧ splitLo (compose hi lo) = lo

/-- A pair view is the composition of its two current cells (R18, R19, R30): a write of one cell shows in the pair that holds it, in its
place, and in no other pair; SetFlags shows in AF alone; each cell belongs to exactly one pair. -/
def Obligations.PairViewsFollowTheCells : Prop :=
  (∀ (s : State) (p : PairName), CompletesWith (.readPair p.rid) s (.word (s.cells.get (highCell p) ++ s.cells.get (lowCell p))) s.cells) ∧
  (∀ (s : State) (r : CellName) (v : Byte) (p : PairName), ∃ t, exec (.writeCell r.rid v) s = .next t ∧
    CompletesWith (.readPair p.rid) t
      (.word (if r = highCell p then v ++ s.cells.get (lowCell p)
        else if r = lowCell p then s.cells.get (highCell p) ++ v
        else s.cells.pairView p)) t.cells) ∧
  (∀ (s : State) (fl : Flags) (p : PairName), ∃ t, exec (.setFlags fl) s = .next t ∧
    CompletesWith (.readPair p.rid) t (.word (if p = .af then s.cells.a ++ t.cells.f else s.cells.pairView p)) t.cells) ∧
  (∀ r : CellName, ∃! p : PairName, r = highCell p ∨ r = lowCell p)

/-- Round trip and independence of pairs (R65). -/
def Obligations.WritePairThenReadPair : Prop :=
  ∀ (s : State) (p : PairName) (hi lo : Byte), ∃ t,
    exec (.writePair p.rid ((hi.setWidth 16 <<< 8) ||| lo.setWidth 16)) s = .next t ∧
    CompletesWith (.readPair p.rid) t (.word ((hi.setWidth 16 <<< 8) ||| lo.setWidth 16)) t.cells ∧
    ∀ q : CellName, q ≠ highCell p → q ≠ lowCell p → t.cells.get q = s.cells.get q

/-- The five consequences of R66. -/
def Obligations.PairWriteConsequences : Prop :=
  ∀ (s : State) (p : PairName) (v w : Word),
    (∃ t, exec (.writePair p.rid v) s = .next t ∧
      CompletesWith (.readCell (highCell p).rid) t (.byte (v.extractLsb' 8 8)) t.cells ∧
      CompletesWith (.readCell (lowCell p).rid) t (.byte (v.extractLsb' 0 8)) t.cells) ∧
    (∃ x, CompletesWith (.readPair p.rid) s (.word x) s.cells ∧ CompletesWith (.writePair p.rid x) s .ack s.cells) ∧
    (∀ q : PairName, q ≠ p → ∃ t x, exec (.writePair p.rid v) s = .next t ∧
      CompletesWith (.readPair q.rid) s (.word x) s.cells ∧ CompletesWith (.readPair q.rid) t (.word x) t.cells) ∧
    (∀ b : Byte,
      (∃ t, exec (.writeCell (highCell p).rid b) s = .next t ∧
        CompletesWith (.readPair p.rid) t (.word (b ++ s.cells.get (lowCell p))) t.cells) ∧
      (∃ t, exec (.writeCell (lowCell p).rid b) s = .next t ∧
        CompletesWith (.readPair p.rid) t (.word (s.cells.get (highCell p) ++ b)) t.cells)) ∧
    (∃ t c, exec (.writePair p.rid v) s = .next t ∧
      CompletesWith (.writePair p.rid w) t .ack c ∧ CompletesWith (.writePair p.rid w) s .ack c)

/-- F stores all eight bits (R20): WriteCell F and WritePair AF store theirs unmasked, SetFlags alone leaves bits 3..0 at zero whatever
it writes. -/
def Obligations.FStoresAllEightBits : Prop :=
  ∀ s : State,
    (∀ v : Byte, ∃ t, exec (.writeCell 0x5 v) s = .next t ∧ t.cells.f = v ∧ CompletesWith (.readCell 0x5) t (.byte v) t.cells) ∧
    (∀ v : Word, ∃ t, exec (.writePair 0x8 v) s = .next t ∧ t.cells.f = v.extractLsb' 0 8 ∧
      CompletesWith (.readPair 0x8) t (.word v) t.cells) ∧
    (∀ fl : Flags, ∃ t, exec (.setFlags fl) s = .next t ∧ t.cells.f.extractLsb' 0 4 = 0b0000)

/-- The decoder depends on F[7:4] alone (R68): each flag is one bit, and each record has sixteen values of F. -/
def Obligations.FlagsDependOnTheHighNibble : Prop :=
  (∀ f : Byte, decodeF f = decodeF (f &&& 0xF0) ∧
    (decodeF f).zero = f[7] ∧ (decodeF f).subtract = f[6] ∧
    (decodeF f).halfCarry = f[5] ∧ (decodeF f).carry = f[4]) ∧
  (∀ fl : Flags, (commandWords.filter (fun f => decodeF f == fl)).length = 16) ∧
  (∀ (s : State) (f : Byte), s.cells.f &&& 0xF0 = f &&& 0xF0 → CompletesWith .getFlags s (.flagsR (decodeF f)) s.cells)

/-- Decode then encode (R70): GetFlags, then SetFlags with the record, leaves F & 0xF0 and no other change. -/
def Obligations.GetFlagsThenSetFlags : Prop :=
  ∀ s : State, ∃ fl, CompletesWith .getFlags s (.flagsR fl) s.cells ∧
    ∃ t, exec .getFlags s = .next t ∧ CompletesWith (.setFlags fl) t .ack { s.cells with f := s.cells.f &&& 0b11110000 }

/-- Encode then decode (R71): SetFlags, then GetFlags, returns the record; the F each record encodes and the values of F that decode
to it; and the flag ports are F[7:4]. -/
def Obligations.SetFlagsThenGetFlags : Prop :=
  ∀ (s : State) (fl : Flags),
    (∃ t, exec (.setFlags fl) s = .next t ∧ t.cells.f.toNat = 16 * (finOfFlags fl).toNat ∧
      CompletesWith .getFlags t (.flagsR fl) t.cells) ∧
    (∀ f : Byte, decodeF f = fl ↔ 16 * (finOfFlags fl).toNat ≤ f.toNat ∧ f.toNat ≤ 16 * (finOfFlags fl).toNat + 15) ∧
    (∀ fin : FlagBits, encodeF (flagsOfFin fin) = fin ++ 0b0000#4) ∧
    (∀ f : Byte, finOfFlags (decodeF f) = f.extractLsb' 4 4)

/-- Changing some flags and keeping the others (R72): GetFlags, any change of the record, SetFlags. The flags are as the issuer
changed them, F[3:0] are cleared, and no other cell changes. -/
def Obligations.FlagUpdateSequence : Prop :=
  ∀ (s : State) (change : Flags → Flags), ∃ fl t u,
    exec .getFlags s = .next t ∧ t.responses = s.responses ++ [.flagsR fl] ∧ exec (.setFlags (change fl)) t = .next u ∧
    u.cells.flagView = change s.cells.flagView ∧ u.cells.f.extractLsb' 0 4 = 0b0000 ∧ u.cells = { s.cells with f := u.cells.f }

/-- The laws of the cell family (R75). -/
def Obligations.CellLaws : Prop :=
  ∀ (s : State) (r : CellName) (v : Byte),
    (∃ t, exec (.writeCell r.rid v) s = .next t ∧
      CompletesWith (.readCell r.rid) t (.byte v) t.cells ∧
      (∀ q : CellName, q ≠ r → ∃ x, CompletesWith (.readCell q.rid) s (.byte x) s.cells ∧
        CompletesWith (.readCell q.rid) t (.byte x) t.cells) ∧
      (∀ p : PairName, r ≠ highCell p → r ≠ lowCell p → t.cells.pairView p = s.cells.pairView p) ∧
      (∀ p : PairName, r = highCell p → t.cells.pairView p = v ++ s.cells.get (lowCell p)) ∧
      (∀ p : PairName, r = lowCell p → t.cells.pairView p = s.cells.get (highCell p) ++ v)) ∧
    (∃ x, CompletesWith (.readCell r.rid) s (.byte x) s.cells ∧ CompletesWith (.writeCell r.rid x) s .ack s.cells)

/-- Every state of the cells is reached from every other by eight WriteCell operations, and by four WritePair operations (R76). -/
def Obligations.EveryStateIsReachable : Prop :=
  ∀ (s : State) (target : Cells),
    (∃ ops : List Request, ops.length ≤ 8 ∧ (∀ q ∈ ops, ∃ (r : CellName) (v : Byte), decode q = .writeCell r.rid v) ∧
      ∃ t, runSteps ops.length { s with inputs := ops.map .op } = .next t ∧ t.cells = target) ∧
    (∃ ops : List Request, ops.length ≤ 4 ∧ (∀ q ∈ ops, ∃ (p : PairName) (v : Word), decode q = .writePair p.rid v) ∧
      ∃ t, runSteps ops.length { s with inputs := ops.map .op } = .next t ∧ t.cells = target)

/-- Reads are pure and repeatable, and every operation is idempotent on the cells (R37). -/
def Obligations.ReadsArePureAndWritesIdempotent : Prop :=
  (∀ (i : Instr) (s t : State), (i = .getFlags ∨ ∃ rid, i = .readPair rid ∨ i = .readCell rid) → exec i s = .next t →
    t.cells = s.cells ∧ ∃ r, t.responses = s.responses ++ [r] ∧
      ∀ u : State, u.cells = s.cells → ∃ v, exec i u = .next v ∧ v.responses = u.responses ++ [r]) ∧
  (∀ (i : Instr) (s t : State), exec i s = .next t → ∃ u, exec i t = .next u ∧ u.cells = t.cells)

/-- What the views determine of the eight bytes (R28): the four pair views determine them all, the seven other cells with the flag view
in place of F do not, since it loses F[3:0]. -/
def Obligations.PairViewsDetermineCellsFlagViewLosesLowNibble : Prop :=
  (∀ c d : Cells, (∀ p, c.pairView p = d.pairView p) → c = d) ∧
  (∃ c d : Cells, c ≠ d ∧ (∀ r, r ≠ .f → c.get r = d.get r) ∧ c.flagView = d.flagView)

/-! ## Runs -/

/-- A run (R100): from any start cells, a list of operations without a reserved word completes, with nothing left to present, one
response per operation, and exactly its Err responses in the fault record (R82), under step numbers that begin at 1 as in
95_test_vectors.md P3 (log entry 9, DEDUCED); a list that holds a reserved word is refused (R53). -/
def Obligations.RunOfOperations : Prop :=
  ∀ (start : Cells) (ops : List Request),
    ((∀ q ∈ ops, reservedWord q.cmd = false) →
      ∃ t, runProgram start ops = .next t ∧ t.inputs = [] ∧ t.position = ops.length ∧ t.responses.length = ops.length ∧
        t.faultRecord = errorsFrom 1 t.completed) ∧
    ((∃ q ∈ ops, reservedWord q.cmd = true) →
      ∃ q ∈ ops, reservedWord q.cmd = true ∧ runProgram start ops = .refused (.reservedCommandWord q.cmd))

/-- Issue order (R39): what the first operations do does not depend on those presented after them. -/
def Obligations.LaterOperationsAreNotSeen : Prop :=
  ∀ (s : State) (now later : List Input),
    AgreeButFor later (runSteps now.length { s with inputs := now ++ later }) (runSteps now.length { s with inputs := now })

/-- A run is free of errors exactly if none of its responses is an Err (R82). -/
def Obligations.ErrorFreeRunHasNoErr : Prop :=
  ∀ (start : Cells) (ops : List Request) (t : State), runProgram start ops = .next t →
    (t.errorFree ↔ ∀ r ∈ t.responses, ∀ e, r ≠ .err e)

/-! ## The notation -/

/-- The notation (R58): each line's command word and operand ports, for a name or a raw rid, unchecked against the operation; numerals
that do not fit are refused. -/
def Obligations.NotationStandsForItsOperation : Prop :=
  (∀ (n : RegName) (k : Nat), k < 16 → asmRid (.named n) = some n.rid ∧ asmRid (.raw k) = some (BitVec.ofNat 4 k)) ∧
  (∀ (x : AsmReg) (rid : RegId), asmRid x = some rid →
    (∃ q, assemble (.readPair x) = some q ∧ q.cmd = 0#1 ++ 0b000#3 ++ rid ∧ decode q = .readPair rid) ∧
    (∃ q, assemble (.readCell x) = some q ∧ q.cmd = 0#1 ++ 0b100#3 ++ rid ∧ decode q = .readCell rid) ∧
    (∀ v : Nat, v < 65536 → ∃ q, assemble (.writePair x v) = some q ∧ q.cmd = 0#1 ++ 0b001#3 ++ rid ∧
      q.wdata = BitVec.ofNat 16 v ∧ decode q = .writePair rid (BitVec.ofNat 16 v)) ∧
    (∀ v : Nat, v < 256 → ∃ q, assemble (.writeCell x v) = some q ∧ q.cmd = 0#1 ++ 0b101#3 ++ rid ∧
      q.wdata = BitVec.ofNat 16 v ∧ decode q = .writeCell rid (BitVec.ofNat 8 v))) ∧
  (∃ q, assemble .getFlags = some q ∧ q.cmd = 0x20 ∧ decode q = .getFlags) ∧
  (∀ z n h c : Bool, ∃ q, assemble (.setFlags { zero := z, subtract := n, halfCarry := h, carry := c }) = some q ∧ q.cmd = 0x30 ∧
    q.fin = BitVec.ofBool z ++ BitVec.ofBool n ++ BitVec.ofBool h ++ BitVec.ofBool c ∧
    decode q = .setFlags { zero := z, subtract := n, halfCarry := h, carry := c }) ∧
  (∀ (x : AsmReg) (v : Nat),
    (65536 ≤ v → assemble (.writePair x v) = none) ∧ (256 ≤ v → assemble (.writeCell x v) = none) ∧
    (16 ≤ v → assemble (.readPair (.raw v)) = none ∧ assemble (.readCell (.raw v)) = none))
end

