-- ==== Sys2Proof/Laws/Decode.lean ====
section
/-! SUPPORT. The fields of a command word and what decodes from them. -/

namespace Sys2Proof

@[simp] theorem opField_commandWord (op : BitVec 3) (rid : RegId) : opField (commandWord op rid) = op := by
  revert op rid; decide

@[simp] theorem ridField_commandWord (op : BitVec 3) (rid : RegId) : ridField (commandWord op rid) = rid := by
  revert op rid; decide

@[simp] theorem commandWord_bit7 (op : BitVec 3) (rid : RegId) : (commandWord op rid)[7] = false := by
  revert op rid; decide

theorem decode_of_bit7 {r : Request} (h : r.cmd[7] = true) : decode r = .reservedBit7 r.cmd := by
  simp only [decode, h, if_true]

theorem decode_readPair {r : Request} (h7 : r.cmd[7] = false) (h : opField r.cmd = 0b000) :
    decode r = .readPair (ridField r.cmd) := by
  rw [decode, if_neg (by rw [h7]; decide), h]; rfl

theorem decode_writePair {r : Request} (h7 : r.cmd[7] = false) (h : opField r.cmd = 0b001) :
    decode r = .writePair (ridField r.cmd) r.wdata := by
  rw [decode, if_neg (by rw [h7]; decide), h]; rfl

theorem decode_getFlags {r : Request} (h7 : r.cmd[7] = false) (h : opField r.cmd = 0b010) :
    decode r = .getFlags := by
  rw [decode, if_neg (by rw [h7]; decide), h]; rfl

theorem decode_setFlags {r : Request} (h7 : r.cmd[7] = false) (h : opField r.cmd = 0b011) :
    decode r = .setFlags (flagsOfFin r.fin) := by
  rw [decode, if_neg (by rw [h7]; decide), h]; rfl

theorem decode_readCell {r : Request} (h7 : r.cmd[7] = false) (h : opField r.cmd = 0b100) :
    decode r = .readCell (ridField r.cmd) := by
  rw [decode, if_neg (by rw [h7]; decide), h]; rfl

theorem decode_writeCell {r : Request} (h7 : r.cmd[7] = false) (h : opField r.cmd = 0b101) :
    decode r = .writeCell (ridField r.cmd) (cellOperand r.wdata) := by
  rw [decode, if_neg (by rw [h7]; decide), h]; rfl

theorem decode_reservedOp {r : Request} (h7 : r.cmd[7] = false) (h : opField r.cmd = 0b110 ∨ opField r.cmd = 0b111) :
    decode r = .reservedOp r.cmd := by
  rcases h with h | h <;> (rw [decode, if_neg (by rw [h7]; decide), h]; rfl)

/-- Every op field is one of the eight. -/
theorem opField_cases (op : BitVec 3) :
    op = 0b000 ∨ op = 0b001 ∨ op = 0b010 ∨ op = 0b011 ∨ op = 0b100 ∨ op = 0b101 ∨ op = 0b110 ∨ op = 0b111 := by
  revert op; decide

end Sys2Proof
end

