-- ==== Sys2Proof/Laws/State.lean ====
section
/-! SUPPORT. One lemma per field per update of the state, so that no proof unfolds a record update; the cell read after a cell
write; the record fields after a response. -/

namespace Sys2Proof.Machine

/-! ## Replacing the cells -/

@[simp] theorem State.withCells_cells (s : State) (c : Cells) : (s.withCells c).cells = c := rfl
@[simp] theorem State.withCells_inputs (s : State) (c : Cells) : (s.withCells c).inputs = s.inputs := rfl
@[simp] theorem State.withCells_position (s : State) (c : Cells) : (s.withCells c).position = s.position := rfl
@[simp] theorem State.withCells_completed (s : State) (c : Cells) : (s.withCells c).completed = s.completed := rfl
@[simp] theorem State.withCells_faultRecord (s : State) (c : Cells) : (s.withCells c).faultRecord = s.faultRecord := rfl
@[simp] theorem State.withCells_freeIndex (s : State) (c : Cells) : (s.withCells c).freeIndex = s.freeIndex := rfl

/-! ## Giving a response -/

@[simp] theorem State.respond_cells (s : State) (r : Response) : (s.respond r).cells = s.cells := rfl
@[simp] theorem State.respond_inputs (s : State) (r : Response) : (s.respond r).inputs = s.inputs := rfl
@[simp] theorem State.respond_position (s : State) (r : Response) : (s.respond r).position = s.position + 1 := rfl
@[simp] theorem State.respond_completed (s : State) (r : Response) :
    (s.respond r).completed = s.completed ++ [{ response := r, ports := portsOf r s.freeIndex }] := rfl
@[simp] theorem State.respond_faultRecord (s : State) (r : Response) :
    (s.respond r).faultRecord = s.faultRecord ++ faultEntries (s.position + 1) r := rfl
@[simp] theorem State.respond_freeIndex (s : State) (r : Response) : (s.respond r).freeIndex = s.freeIndex + 1 := rfl

/-! ## Presenting and launching -/

@[simp] theorem State.present_cells (s : State) (r : Request) : (s.present r).cells = s.cells := rfl
@[simp] theorem State.present_inputs (s : State) (r : Request) : (s.present r).inputs = .op r :: s.inputs.tail := rfl
@[simp] theorem State.present_position (s : State) (r : Request) : (s.present r).position = s.position := rfl
@[simp] theorem State.present_completed (s : State) (r : Request) : (s.present r).completed = s.completed := rfl
@[simp] theorem State.present_faultRecord (s : State) (r : Request) : (s.present r).faultRecord = s.faultRecord := rfl
@[simp] theorem launch_cells (c : Cells) (ops : List Request) : (launch c ops).cells = c := rfl
@[simp] theorem launch_inputs (c : Cells) (ops : List Request) : (launch c ops).inputs = ops.map .op := rfl
@[simp] theorem launch_position (c : Cells) (ops : List Request) : (launch c ops).position = 0 := rfl
@[simp] theorem launch_completed (c : Cells) (ops : List Request) : (launch c ops).completed = [] := rfl
@[simp] theorem launch_faultRecord (c : Cells) (ops : List Request) : (launch c ops).faultRecord = [] := rfl

/-! ## Reading and writing cells (R16, R75) -/

@[simp] theorem Cells.get_set_same (c : Cells) (r : CellName) (v : Byte) : (c.set r v).get r = v := by
  cases r <;> rfl

theorem Cells.get_set_other (c : Cells) (r q : CellName) (v : Byte) (h : q ≠ r) : (c.set r v).get q = c.get q := by
  cases r <;> cases q <;> first | rfl | exact absurd rfl h

@[simp] theorem Cells.set_get (c : Cells) (r : CellName) : c.set r (c.get r) = c := by
  cases r <;> rfl

@[simp] theorem Cells.set_set_same (c : Cells) (r : CellName) (v w : Byte) : (c.set r v).set r w = c.set r w := by
  cases r <;> rfl

/-- Two sets of cells that read alike are the same. -/
theorem Cells.eq_of_get {c d : Cells} (h : ∀ r, c.get r = d.get r) : c = d := by
  cases c
  cases d
  simpa [Cells.get] using And.intro (h .a) ⟨h .b, h .c, h .d, h .e, h .f, h .h, h .l⟩

end Sys2Proof.Machine
end

