-- ==== Sys2Proof/Laws/Operands.lean ====
section
/-! SUPPORT. The conversions between a pair and its bytes (R62), the flag encoder and decoder (R67 to R71), and what a rid selects
(R50, R61, R73), each in the form later proofs use. -/

namespace Sys2Proof.Machine

/-! ## Pair and bytes -/

/-- Composition is concatenation, high byte first (R62). -/
theorem compose_eq_append (hi lo : Byte) : compose hi lo = hi ++ lo := by
  apply BitVec.eq_of_getLsbD_eq
  intro i hi'
  rw [compose, BitVec.getLsbD_or, BitVec.getLsbD_shiftLeft, BitVec.getLsbD_setWidth, BitVec.getLsbD_setWidth,
    BitVec.getLsbD_append]
  by_cases h : i < 8
  · simp [h, show i < 16 by omega]
  · simp [h, show i < 16 by omega, show i - 8 < 16 by omega, BitVec.getLsbD_of_ge lo i (by omega)]

/-- The high byte is bits 15..8 (R62). -/
theorem splitHi_eq_extract (v : Word) : splitHi v = v.extractLsb' 8 8 := by
  apply BitVec.eq_of_getLsbD_eq
  intro i hi
  have hm : BitVec.getLsbD (0xFF : Word) i = true := by interval_cases i <;> rfl
  rw [splitHi, BitVec.getLsbD_setWidth, BitVec.getLsbD_and, hm, BitVec.getLsbD_ushiftRight, BitVec.getLsbD_extractLsb']
  simp [hi]

/-- The low byte is bits 7..0 (R62). -/
theorem splitLo_eq_extract (v : Word) : splitLo v = v.extractLsb' 0 8 := by
  apply BitVec.eq_of_getLsbD_eq
  intro i hi
  have hm : BitVec.getLsbD (0xFF : Word) i = true := by interval_cases i <;> rfl
  rw [splitLo, BitVec.getLsbD_setWidth, BitVec.getLsbD_and, hm, BitVec.getLsbD_extractLsb']
  simp [hi]

/-! ## What a rid selects -/

theorem cellOf_rid (r : CellName) : cellOf r.rid = some r := by cases r <;> rfl

theorem pairOf_rid (p : PairName) : pairOf p.rid = some (highCell p, lowCell p) := by cases p <;> rfl

/-- A rid names a cell for direct access exactly if it is 0x0 to 0x7 (R51). -/
theorem cellOf_eq_none_iff (rid : RegId) : cellOf rid = none ↔ 8 ≤ rid.toNat := by revert rid; decide

/-- A rid names a pair exactly if it is 0x8 to 0xB (R51). -/
theorem pairOf_eq_none_iff (rid : RegId) : pairOf rid = none ↔ rid.toNat < 8 ∨ 12 ≤ rid.toNat := by revert rid; decide

theorem cellOf_eq_some {rid : RegId} {r : CellName} (h : cellOf rid = some r) : rid = r.rid := by
  revert rid r
  intro rid r
  cases r <;> revert rid <;> decide

theorem pairOf_eq_some {rid : RegId} {x : CellName × CellName} (h : pairOf rid = some x) :
    ∃ p : PairName, rid = p.rid ∧ x = (highCell p, lowCell p) := by
  obtain ⟨p, hp⟩ : ∃ p : PairName, rid = p.rid := by
    have hn : pairOf rid ≠ none := by simp [h]
    have all : ∀ q : RegId, pairOf q ≠ none → q = 0x8 ∨ q = 0x9 ∨ q = 0xA ∨ q = 0xB := by decide
    rcases all rid hn with rfl | rfl | rfl | rfl
    · exact ⟨.af, rfl⟩
    · exact ⟨.bc, rfl⟩
    · exact ⟨.de, rfl⟩
    · exact ⟨.hl, rfl⟩
  refine ⟨p, hp, ?_⟩
  rw [hp, pairOf_rid] at h
  exact (Option.some.inj h).symm

/-- The two cells of a pair are different cells (R19). -/
theorem highCell_ne_lowCell (p : PairName) : highCell p ≠ lowCell p := by cases p <;> decide

/-! ## Flags -/

/-- Each flag is one bit of F (R67). -/
theorem decodeF_eq (f : Byte) : decodeF f = ⟨f[7], f[6], f[5], f[4]⟩ := by
  revert f; decide

/-- The encoder puts the record in F[7:4] over four zeros (R69, R71). -/
theorem encodeF_eq (fl : Flags) : encodeF fl = finOfFlags fl ++ 0#4 := by
  rcases fl with ⟨z, s, h, c⟩
  cases z <;> cases s <;> cases h <;> cases c <;> rfl

@[simp] theorem flagsOfFin_finOfFlags (fl : Flags) : flagsOfFin (finOfFlags fl) = fl := by
  rcases fl with ⟨z, s, h, c⟩
  cases z <;> cases s <;> cases h <;> cases c <;> rfl

@[simp] theorem finOfFlags_flagsOfFin (x : FlagBits) : finOfFlags (flagsOfFin x) = x := by revert x; decide

end Sys2Proof.Machine
end

