-- ==== Sys2Proof/Laws/Exec.lean ====
section
/-! SUPPORT. What the shared operations and the meanings can do, said once: every instruction that answers a next state does so by
leaving some cells and giving one response. -/

namespace Sys2Proof.Machine

/-- The ports of a response carry it, whatever the free values are (R55). -/
theorem portsOf_carries (r : Response) (n : Nat) : Carries (portsOf r n) r := by
  cases r with
  | word v => exact ⟨rfl, rfl⟩
  | byte v =>
    refine ⟨?_, rfl⟩
    apply BitVec.eq_of_getLsbD_eq
    intro i hi
    show (v.setWidth 16).getLsbD i = (0#8 ++ v).getLsbD i
    rw [BitVec.getLsbD_setWidth, BitVec.getLsbD_append]
    by_cases h : i < 8
    · simp [h, hi]
    · simp [h, BitVec.getLsbD_of_ge v i (by omega)]
  | flagsR fl => exact ⟨rfl, rfl⟩
  | ack => rfl
  | err e => rfl

/-- Completing a step performs one operation. -/
theorem respond_performed (s : State) (c : Cells) (r : Response) :
    Performed s ((s.withCells c).respond r) r c (faultEntries (s.position + 1) r) :=
  { cells := rfl, inputs := rfl, position := rfl, faultRecord := rfl
    completed := ⟨portsOf r s.freeIndex, portsOf_carries r _, rfl⟩ }

/-- Completing a step without touching the cells. -/
theorem respond_performed_same (s : State) (r : Response) :
    Performed s (s.respond r) r s.cells (faultEntries (s.position + 1) r) := respond_performed s s.cells r

/-- Raising the error (R80): the state after holds the cells before. -/
theorem raise_eq (rid : RegId) (s : State) :
    raiseInvalidRegisterIdentifier rid s = .next (s.respond (.err (.invalidRegisterIdentifier rid))) := rfl

/-- The block's part of an instruction: the response it gives and the cells it leaves. A reserved row has none. -/
def effect (i : Instr) (c : Cells) : Option (Response × Cells) :=
  match i with
  | .readPair rid =>
    match pairOf rid with
    | none => some (.err (.invalidRegisterIdentifier rid), c)
    | some (hi, lo) => some (.word (compose (c.get hi) (c.get lo)), c)
  | .writePair rid v =>
    match pairOf rid with
    | none => some (.err (.invalidRegisterIdentifier rid), c)
    | some (hi, lo) => some (.ack, (c.set hi (splitHi v)).set lo (splitLo v))
  | .getFlags => some (.flagsR (decodeF c.f), c)
  | .setFlags fl => some (.ack, c.set .f (encodeF fl))
  | .readCell rid =>
    match cellOf rid with
    | none => some (.err (.invalidRegisterIdentifier rid), c)
    | some r => some (.byte (c.get r), c)
  | .writeCell rid v =>
    match cellOf rid with
    | none => some (.err (.invalidRegisterIdentifier rid), c)
    | some r => some (.ack, c.set r v)
  | .reservedOp _ => none
  | .reservedBit7 _ => none

/-- Everything exec can do: an instruction with an effect completes with it, for every state. -/
theorem exec_of_effect {i : Instr} {s : State} {r : Response} {c : Cells} (h : effect i s.cells = some (r, c)) :
    exec i s = .next ((s.withCells c).respond r) := by
  cases i with
  | readPair rid =>
    simp only [effect] at h
    simp only [exec, execReadPair]
    split at h <;> (cases h; simp_all [complete, raise_eq, State.withCells])
  | writePair rid v =>
    simp only [effect] at h
    simp only [exec, execWritePair]
    split at h <;> (cases h; simp_all [complete, raise_eq, State.withCells])
  | getFlags => cases h; rfl
  | setFlags fl => cases h; rfl
  | readCell rid =>
    simp only [effect] at h
    simp only [exec, execReadCell]
    split at h <;> (cases h; simp_all [complete, raise_eq, State.withCells])
  | writeCell rid v =>
    simp only [effect] at h
    simp only [exec, execWriteCell]
    split at h <;> (cases h; simp_all [complete, raise_eq, State.withCells])
  | reservedOp cmd => cases h
  | reservedBit7 cmd => cases h

/-- An instruction without an effect is a reserved row, and refuses. -/
theorem exec_of_no_effect {i : Instr} {c : Cells} (h : effect i c = none) (s : State) :
    ∃ cmd, (i = .reservedOp cmd ∨ i = .reservedBit7 cmd) ∧ exec i s = .refused (.reservedCommandWord cmd) := by
  cases i with
  | readPair rid => simp only [effect] at h; split at h <;> cases h
  | writePair rid v => simp only [effect] at h; split at h <;> cases h
  | getFlags => cases h
  | setFlags fl => cases h
  | readCell rid => simp only [effect] at h; split at h <;> cases h
  | writeCell rid v => simp only [effect] at h; split at h <;> cases h
  | reservedOp cmd => exact ⟨cmd, .inl rfl, rfl⟩
  | reservedBit7 cmd => exact ⟨cmd, .inr rfl, rfl⟩

/-- The inversion of exec: a next state is one response and the effect's cells. -/
theorem exec_next {i : Instr} {s t : State} (h : exec i s = .next t) :
    ∃ r c, effect i s.cells = some (r, c) ∧ t = (s.withCells c).respond r := by
  cases he : effect i s.cells with
  | none =>
    obtain ⟨cmd, _, hr⟩ := exec_of_no_effect he s
    rw [hr] at h
    cases h
  | some x =>
    obtain ⟨r, c⟩ := x
    rw [exec_of_effect he] at h
    cases h
    exact ⟨r, c, rfl, rfl⟩

/-- exec performs one operation (R46, R55). -/
theorem exec_performed {i : Instr} {s : State} {r : Response} {c : Cells} (h : effect i s.cells = some (r, c)) :
    ∃ t, exec i s = .next t ∧ Performed s t r c (faultEntries (s.position + 1) r) :=
  ⟨_, exec_of_effect h, respond_performed s c r⟩

/-- An effect whose response is no Err completes. -/
theorem completes_of_effect {i : Instr} {s : State} {r : Response} {c : Cells} (h : effect i s.cells = some (r, c))
    (hr : faultEntries (s.position + 1) r = []) : CompletesWith i s r c := by
  obtain ⟨t, ht, hp⟩ := exec_performed h
  exact ⟨t, ht, hr ▸ hp⟩

/-- An effect whose response is Err raises. -/
theorem raises_of_effect {i : Instr} {s : State} {rid : RegId}
    (h : effect i s.cells = some (.err (.invalidRegisterIdentifier rid), s.cells)) : RaisesInvalid i s rid := exec_performed h

end Sys2Proof.Machine
end

