-- ==== Sys2Proof/Laws/PerInstr.lean ====
section
/-! SUPPORT. One family of statements made per instruction: the command word an instruction encodes to is one of its row of
opcode_table.json. -/

namespace Sys2Proof.Laws.RowCover

/-- A well-formed instruction's command word agrees with its row's match on its row's mask (R48, R53). -/
def Statement (i : Instr) : Prop := i.wellFormed = true → i.row.covers (encode i).cmd = true

theorem readPair (rid : RegId) : Statement (.readPair rid) := by
  intro _; revert rid; decide

theorem writePair (rid : RegId) (value : Word) : Statement (.writePair rid value) := by
  intro _
  have all : ∀ q : RegId, OpcodeRow.covers ⟨0xF0, 0x10⟩ (commandWord 0b001 q) = true := by decide
  exact all rid

theorem getFlags : Statement .getFlags := by
  unfold Statement; decide

theorem setFlags (fl : Flags) : Statement (.setFlags fl) := by
  intro _
  have word : OpcodeRow.covers ⟨0xF0, 0x30⟩ (commandWord 0b011 0b0000) = true := by decide
  exact word

theorem readCell (rid : RegId) : Statement (.readCell rid) := by
  intro _; revert rid; decide

theorem writeCell (rid : RegId) (v : Byte) : Statement (.writeCell rid v) := by
  intro _
  have all : ∀ q : RegId, OpcodeRow.covers ⟨0xF0, 0x50⟩ (commandWord 0b101 q) = true := by decide
  exact all rid

theorem reservedOp (cmd : Byte) : Statement (.reservedOp cmd) := by
  revert cmd; unfold Statement; decide

theorem reservedBit7 (cmd : Byte) : Statement (.reservedBit7 cmd) := by
  revert cmd; unfold Statement; decide

end Sys2Proof.Laws.RowCover
end

