-- ==== Sys2Proof/Laws/Step.lean ====
section
/-! SUPPORT. What a step can do, said once for each kind of input; and the machine behind the host's interface runs as
`runSteps` does. -/

namespace Sys2Proof.Machine

/-- A step performs the operation presented next, in the state with that input taken off (R46). -/
theorem step_op {s : State} {r : Request} {rest : List Input} (h : s.inputs = .op r :: rest) :
    step s = exec (decode r) { s with inputs := rest } := by
  simp only [step, fetch, h]

theorem step_nil {s : State} (h : s.inputs = []) : step s = .fault .runEnded := by
  simp only [step, fetch, h]

theorem step_reset {s : State} {rest : List Input} (h : s.inputs = .reset :: rest) :
    step s = resetEvent { s with inputs := rest } := by
  simp only [step, fetch, h]

theorem step_contended {s : State} {a b : Request} {rest : List Input} (h : s.inputs = .contended a b :: rest) :
    step s = .refused .concurrentIssue := by
  simp only [step, fetch, h]

/-- The inversion of step: a next state comes of one operation with an effect, or of a reset before the first operation. -/
theorem step_next {s t : State} (h : step s = .next t) :
    (∃ q rest r c, s.inputs = .op q :: rest ∧ effect (decode q) s.cells = some (r, c) ∧
      t = (({ s with inputs := rest } : State).withCells c).respond r) ∨
    (∃ rest, s.inputs = .reset :: rest ∧ s.position = 0 ∧ t = ({ s with inputs := rest } : State).withCells Cells.reset) := by
  cases hi : s.inputs with
  | nil => rw [step_nil hi] at h; cases h
  | cons x rest =>
    cases x with
    | op q =>
      rw [step_op hi] at h
      obtain ⟨r, c, he, ht⟩ := exec_next h
      exact .inl ⟨q, rest, r, c, rfl, he, ht⟩
    | reset =>
      rw [step_reset hi, resetEvent] at h
      split at h
      · next h0 => cases h; exact .inr ⟨rest, rfl, h0, rfl⟩
      · cases h
    | contended a b => rw [step_contended hi] at h; cases h

@[simp] theorem runSteps_zero (s : State) : runSteps 0 s = .next s := rfl

theorem runSteps_succ_next {s t : State} (h : step s = .next t) (k : Nat) : runSteps (k + 1) s = runSteps k t := by
  simp only [runSteps, h]

/-- The host's run of the machine is `runSteps`. -/
theorem run_eq_runSteps (k : Nat) (s : State) : Host.Core.run Sys2Proof.core k s = runSteps k s := by
  induction k generalizing s with
  | zero => rfl
  | succ k ih =>
    simp only [Host.Core.run, runSteps]
    generalize ho : step s = o
    have hc : Sys2Proof.core.step s = o := ho
    rw [hc]
    cases o with
    | next t => exact ih t
    | fault r => rfl
    | refused r => rfl

end Sys2Proof.Machine
end

