-- ==== Sys2Proof/Tests/Slice0.lean ====
section
/-! SUPPORT. Small tests, each one step with its expected result taken from 95_test_vectors.md or written out from the spec's
encoding; and a witness that meets the hypotheses of every statement that has any. -/

namespace Sys2Proof.Tests

open Sys2Proof.Machine

/-- S0 of 95_test_vectors.md. -/
def s0 : State := launch ⟨0x12, 0x34, 0x56, 0x78, 0x9A, 0xBC, 0xDE, 0xF0⟩ []

/-- S0 with another F. -/
def s0F (f : Byte) : State := launch ⟨0x12, 0x34, 0x56, 0x78, 0x9A, f, 0xDE, 0xF0⟩ []

/-- The cells an answer leaves. -/
def cellsOf : Answer → Option Cells
  | .next t => some t.cells
  | _ => none

/-- The last response an answer leaves. -/
def responseOf : Answer → Option Response
  | .next t => t.responses.getLast?
  | _ => none

/-- The fault record an answer leaves. -/
def faultsOf : Answer → Option (List FaultEntry)
  | .next t => some t.faultRecord
  | _ => none

/-- The last output ports an answer leaves. -/
def portsLeft : Answer → Option OutPorts
  | .next t => t.completed.getLast?.map (·.ports)
  | _ => none

/-- The reserved word an answer refuses. -/
def refusedWord : Answer → Option Byte
  | .refused (.reservedCommandWord cmd) => some cmd
  | _ => none

/-- The step that presents a request. -/
def stepOn (s : State) (cmd : Byte) (wdata : Word) (fin : FlagBits) : Answer := step (s.present ⟨cmd, wdata, fin⟩)

/-! ## WellFormed refuses ill-formed terms, one for each check -/

theorem test_reservedOp_of_writeCell_word_ill_formed : (Instr.reservedOp 0b01011111).wellFormed = false := by decide

theorem test_reservedBit7_of_bit7_clear_ill_formed : (Instr.reservedBit7 0b01111111).wellFormed = false := by decide

/-! ## Words written out from the encoding `0 ooo rrrr` (R47, R48, R50), one for each constructor -/

theorem test_word_readPair_hl : decode ⟨0b00001011, 0, 0⟩ = .readPair 0b1011 := by decide

theorem test_word_writePair_af : decode ⟨0b00011000, 0xFF0F, 0b1111⟩ = .writePair 0b1000 0xFF0F := by decide

theorem test_word_getFlags_any_rid : decode ⟨0b00101101, 0xFFFF, 0b1111⟩ = .getFlags := by decide

theorem test_word_setFlags_carry_is_bit0 :
    decode ⟨0b00110000, 0, 0b0001⟩ = .setFlags { zero := false, subtract := false, halfCarry := false, carry := true } := by
  decide

theorem test_word_readCell_f : decode ⟨0b01000101, 0, 0⟩ = .readCell 0b0101 := by decide

theorem test_word_writeCell_ignores_high_byte : decode ⟨0b01010010, 0xFFAB, 0⟩ = .writeCell 0b0010 0xAB := by decide

theorem test_word_reservedOp : decode ⟨0b01110000, 0, 0⟩ = .reservedOp 0b01110000 := by decide

theorem test_word_reservedBit7_first : decode ⟨0b11100000, 0, 0⟩ = .reservedBit7 0b11100000 := by decide

theorem test_opcode_rows_disjoint :
    ∀ w : Byte, (opcodeTable.filter (fun row => row.covers w)).length = 1 := by decide

theorem test_decodeBits_short_refused : decodeBits 7 0x08 = .error .commandWordCutShort := by rfl

theorem test_decodeBits_long_refused : decodeBits 29 0x08 = .error .longerThanAllPorts := by rfl

/-! ## One step from 95_test_vectors.md -/

/-- V1. -/
theorem test_readPair_af : responseOf (stepOn s0 0x08 0 0) = some (.word 0x12BC) := by decide

/-- V7: an unassigned rid; no cell changes. -/
theorem test_readPair_unassigned :
    responseOf (stepOn s0 0x0C 0 0) = some (.err (.invalidRegisterIdentifier 0xC)) ∧ cellsOf (stepOn s0 0x0C 0 0) = some s0.cells := by
  decide

/-- V11: F keeps the low nibble. -/
theorem test_writePair_af_unmasked : cellsOf (stepOn s0 0x18 0xFF0F 0) = some { s0.cells with a := 0xFF, f := 0x0F } := by
  decide

/-- V15: the rid of a cell; no cell changes. -/
theorem test_writePair_of_cell : cellsOf (stepOn s0 0x17 0x1234 0) = some s0.cells := by decide

/-- V29. -/
theorem test_getFlags_low_nibble_ignored :
    responseOf (stepOn (s0F 0x7F) 0x20 0 0) =
      some (.flagsR { zero := false, subtract := true, halfCarry := true, carry := true }) := by decide

/-- V30 (alias word), and fout = F[7:4] with err = 0. -/
theorem test_getFlags_alias_fout :
    (portsLeft (stepOn s0 0x2F 0 0)).map (fun o => (o.fout, o.err)) = some (0b1011, false) := by decide

/-- V34 (alias word). -/
theorem test_setFlags_alias : cellsOf (stepOn s0 0x3A 0 0b1000) = some { s0.cells with f := 0x80 } := by decide

/-- V37. -/
theorem test_setFlags_clears_low_nibble : cellsOf (stepOn (s0F 0x0F) 0x30 0 0) = some { s0.cells with f := 0x00 } := by decide

/-- V46, zero-extended onto rdata (R55). -/
theorem test_readCell_h_rdata :
    (portsLeft (stepOn s0 0x46 0 0)).map (fun o => (o.rdata, o.err)) = some (0x00DE, false) := by decide

/-- V48: the rid of a pair; err = 1. -/
theorem test_readCell_of_pair :
    responseOf (stepOn s0 0x48 0 0) = some (.err (.invalidRegisterIdentifier 0x8)) ∧
    (portsLeft (stepOn s0 0x48 0 0)).map (·.err) = some true := by decide

/-- V51: wdata[15:8] has no effect. -/
theorem test_writeCell_high_byte_ignored : cellsOf (stepOn s0 0x50 0xFF00 0) = some { s0.cells with a := 0x00 } := by decide

/-- P3 step 4: the error is recorded under its step number, behind those before it. -/
theorem test_writeCell_of_pair_recorded :
    faultsOf (stepOn { s0 with position := 3, faultRecord := [⟨2, .invalidRegisterIdentifier 0x3⟩] } 0x5A 0 0) =
      some [⟨2, .invalidRegisterIdentifier 0x3⟩, ⟨4, .invalidRegisterIdentifier 0xA⟩] := by decide

/-- V60. -/
theorem test_reservedOp_refused : refusedWord (stepOn s0 0x60 0 0) = some 0x60 := by decide

/-- V64: the reserved check comes first. -/
theorem test_reservedBit7_refused : refusedWord (stepOn s0 0x8B 0 0) = some 0x8B := by decide

/-! ## The notation (R58), from the lines of 95_test_vectors.md -/

theorem test_text_writePair : parseLine "WritePair HL, 0xBEEF ; sets H and L".toList = .line (.writePair (.named (.pair .hl)) 0xBEEF) := by
  decide

theorem test_text_call_notation : parseLine "WritePair(HL, 0xBEEF)".toList = .line (.writePair (.named (.pair .hl)) 0xBEEF) := by
  decide

theorem test_text_setFlags_omitted_is_zero :
    parseLine "SetFlags z=1 h=1".toList =
      .line (.setFlags { zero := true, subtract := false, halfCarry := true, carry := false }) := by decide

theorem test_text_raw_rid : (assembleText "ReadPair #0xC\n".toList) = some [⟨0x0C, 0, 0⟩] := by decide

theorem test_text_numeral_too_wide : assembleText "WriteCell A, 256".toList = none := by decide

theorem test_text_binary_separator : parseLine "WriteCell F, 0b1010_0000".toList = .line (.writeCell (.named (.cell .f)) 0xA0) := by
  decide

/-! ## Witnesses: states and operands that meet the hypotheses of the statements -/

/-- DecodeUndoesEncode. -/
theorem witness_wellFormed_reserved : (Instr.reservedOp 0x60).wellFormed = true ∧ (Instr.reservedOp 0x7F).wellFormed = true ∧
    (Instr.reservedBit7 0x80).wellFormed = true ∧ (Instr.reservedBit7 0xFF).wellFormed = true := by decide

/-- CommandWordsSorted, InvalidIdentifierWords, OutcomePriority: the words where their ranges meet. -/
theorem witness_range_ends :
    [0x00, 0x07, 0x0C, 0x17, 0x1C, 0x1F, 0x48, 0x4F, 0x58, 0x5F].map (fun w => responseOf (stepOn s0 w 0 0)) =
      [0x0, 0x7, 0xC, 0x7, 0xC, 0xF, 0x8, 0xF, 0x8, 0xF].map (fun rid => some (.err (.invalidRegisterIdentifier rid))) ∧
    [0x08, 0x0B, 0x18, 0x1B, 0x20, 0x2F, 0x30, 0x3F, 0x40, 0x47, 0x50, 0x57].map (fun w => faultsOf (stepOn s0 w 0 0)) =
      List.replicate 12 (some []) ∧
    [0x60, 0x7F, 0x80, 0xFF].map (fun w => refusedWord (stepOn s0 w 0 0)) = [some 0x60, some 0x7F, some 0x80, some 0xFF] := by
  decide

/-- ReadPairReturnsThePair, WritePairWritesBothBytes: rids that name no pair. ReadCellReturnsTheCell, WriteCellOverwritesOneCell: rids
that name no cell. -/
theorem witness_bad_rids : ((0x7 : RegId) ≠ 0x8 ∧ (0x7 : RegId) ≠ 0x9 ∧ (0x7 : RegId) ≠ 0xA ∧ (0x7 : RegId) ≠ 0xB) ∧
    ((0xC : RegId) ≠ 0x8 ∧ (0xC : RegId) ≠ 0x9 ∧ (0xC : RegId) ≠ 0xA ∧ (0xC : RegId) ≠ 0xB) ∧
    8 ≤ (0x8 : RegId).toNat ∧ 8 ≤ (0xF : RegId).toNat := by decide

/-- ReservedWordsAreRefused: each of its three kinds of word. -/
theorem witness_reserved_words : (0x80 : Byte)[7] = true ∧ (0x60 : Byte).extractLsb' 4 3 = 0b110 ∧ (0x7F : Byte).extractLsb' 4 3 = 0b111 := by
  decide

/-- ErrorChangesNoCell. -/
theorem witness_error_answer :
    ∃ t, exec (.readPair 0x0) s0 = .next t ∧ t.responses = s0.responses ++ [.err (.invalidRegisterIdentifier 0x0)] :=
  ⟨_, rfl, rfl⟩

/-- BlockContinuesAfterError. -/
theorem witness_raises : RaisesInvalid (.writeCell 0xC 0x01) s0 0xC := raises_of_effect rfl

/-- BlockContinuesAfterError, its inner hypotheses; EveryOperationCompletesOrIsRefused; OnlyTheCellsMatter. -/
theorem witness_completes : CompletesWith (.setFlags ⟨true, false, true, false⟩) s0 .ack { s0.cells with f := 0xA0 } :=
  completes_of_effect rfl rfl

theorem witness_refuses : exec (.reservedOp 0x60) s0 = .refused (.reservedCommandWord 0x60) := rfl

/-- ResponsesAndPorts, ReadsArePureAndWritesIdempotent: a next state for a read of each kind and for a write. -/
theorem witness_next_states :
    (∃ t, exec .getFlags s0 = .next t) ∧ (∃ t, exec (.readPair 0x9) s0 = .next t) ∧ (∃ t, exec (.readCell 0x7) s0 = .next t) ∧
    (∃ t, exec (.writePair 0xB 0xBEEF) s0 = .next t) := ⟨⟨_, rfl⟩, ⟨_, rfl⟩, ⟨_, rfl⟩, ⟨_, rfl⟩⟩

/-- StepRunsTheDecodedInstruction, FaultRecordIsNeverCleared. -/
theorem witness_presented : (s0.present ⟨0x00, 0, 0⟩).inputs = .op ⟨0x00, 0, 0⟩ :: [] ∧
    RaisesInvalid (decode ⟨0x00, 0, 0⟩) (s0.present ⟨0x00, 0, 0⟩) 0x0 :=
  ⟨rfl, raises_of_effect rfl⟩

/-- PlacedWordIsRun. -/
theorem witness_table_word : decodeTableWord 8 0x0B = some (.readPair 0xB) := by decide

/-- ResetEvent: its two cases. -/
theorem witness_reset_positions : s0.position = 0 ∧ ({ s0 with position := 1 } : State).position ≠ 0 := by decide

/-- OneOperationPerStep: a step by an operation and a step by reset. OnlyWritesChangeCells, OnlyThreeOperationsChangeF: each of their causes
does change F from S0. -/
theorem witness_F_changes :
    (∃ t, step (s0.present ⟨0x30, 0, 0⟩) = .next t ∧ t.cells.f ≠ (s0.present ⟨0x30, 0, 0⟩).cells.f) ∧
    (∃ t, step (s0.present ⟨0x55, 0, 0⟩) = .next t ∧ t.cells.f ≠ (s0.present ⟨0x55, 0, 0⟩).cells.f) ∧
    (∃ t, step (s0.present ⟨0x18, 0, 0⟩) = .next t ∧ t.cells.f ≠ (s0.present ⟨0x18, 0, 0⟩).cells.f) ∧
    (∃ t, step { s0 with inputs := [.reset] } = .next t ∧ t.cells.f ≠ ({ s0 with inputs := [.reset] } : State).cells.f) :=
  ⟨⟨_, rfl, by decide⟩, ⟨_, rfl, by decide⟩, ⟨_, rfl, by decide⟩, ⟨_, rfl, by decide⟩⟩

/-- StepKeepsRecordsCoherent. -/
theorem witness_coherent_step : (s0.present ⟨0x08, 0, 0⟩).Coherent ∧ ∃ t, step (s0.present ⟨0x08, 0, 0⟩) = .next t :=
  ⟨⟨rfl, rfl, fun _ h => absurd h List.not_mem_nil⟩, ⟨_, rfl⟩⟩

/-- OnlyTheCellsMatter: different states with the same cells. -/
theorem witness_same_cells : s0.cells = ({ s0 with position := 5 } : State).cells ∧ s0 ≠ { s0 with position := 5 } := by decide

/-- UnnamedCellsAreUnchanged, WritePairThenReadPair, PairWriteConsequences, CellLaws: the cells and pairs their conditions pick. -/
theorem witness_cells_and_pairs : CellName.b ≠ .a ∧ (CellName.b ≠ highCell .af ∧ CellName.b ≠ lowCell .af) ∧ CellName.h ≠ .f ∧
    PairName.hl ≠ .af ∧ CellName.a = highCell .af ∧ CellName.f = lowCell .af := by decide

/-- FlagsDependOnTheHighNibble: another F with the same high nibble. -/
theorem witness_same_high_nibble : s0.cells.f &&& 0xF0 = (0xB0 : Byte) &&& 0xF0 := by decide

/-- PairViewsDetermineCellsFlagViewLosesLowNibble. -/
theorem witness_same_pairs : ∀ p, s0.cells.pairView p = Cells.pairView ⟨0x12, 0x34, 0x56, 0x78, 0x9A, 0xBC, 0xDE, 0xF0⟩ p :=
  fun _ => rfl

/-- RunOfOperations: a list of each kind. -/
theorem witness_runs : (∀ q ∈ [(⟨0x19, 0x1234, 0⟩ : Request), ⟨0x5F, 0, 0⟩], reservedWord q.cmd = false) ∧
    (∃ q ∈ [(⟨0x19, 0x1234, 0⟩ : Request), ⟨0x60, 0, 0⟩], reservedWord q.cmd = true) := by decide

/-- ErrorFreeRunHasNoErr. -/
theorem witness_run_answers : ∃ t, runProgram s0.cells [⟨0x00, 0, 0⟩] = .next t := ⟨_, rfl⟩

/-- NotationStandsForItsOperation: the ends of its ranges. -/
theorem witness_notation : (15 : Nat) < 16 ∧ asmRid (.raw 15) = some 0xF ∧ asmRid (.raw 16) = none ∧ asmRid (.named (.pair .hl)) = some 0xB ∧
    (assemble (.writePair (.named (.pair .hl)) 65535)).isSome = true ∧ assemble (.writePair (.named (.pair .hl)) 65536) = none ∧
    (assemble (.writeCell (.named (.cell .a)) 255)).isSome = true ∧ assemble (.writeCell (.named (.cell .a)) 256) = none := by
  decide

end Sys2Proof.Tests
end

/-! ## What each operation does, from the rules of its rid

Lemmas about `effect` and `exec` for the instructions that name a cell or a pair, the two inversions that say when an
operation completes, raises or is refused by its effect alone, and how the pair views follow the cells. -/

namespace Sys2Proof.Machine

/-! ### Pair values and their bytes (R62) -/

/-- R62, one way: composing the two bytes of a value gives the value. -/
@[simp] theorem compose_splitHi_splitLo (v : Word) : compose (splitHi v) (splitLo v) = v := by
  rw [compose_eq_append, splitHi_eq_extract, splitLo_eq_extract]
  exact (BitVec.extractLsb'_append_extractLsb'_eq_extractLsb' (show 8 = 0 + 8 from rfl)).trans BitVec.extractLsb'_eq_self

@[simp] theorem splitHi_compose (hi lo : Byte) : splitHi (compose hi lo) = hi := by
  rw [splitHi_eq_extract, compose_eq_append]
  exact BitVec.extractLsb'_append_eq_left

@[simp] theorem splitLo_compose (hi lo : Byte) : splitLo (compose hi lo) = lo := by
  rw [splitLo_eq_extract, compose_eq_append]
  exact BitVec.extractLsb'_append_eq_right

/-- SetFlags writes zeros in F[3:0] (R69). -/
@[simp] theorem encodeF_low_nibble (fl : Flags) : (encodeF fl).extractLsb' 0 4 = 0b0000 := by
  rw [encodeF_eq]
  exact BitVec.extractLsb'_append_eq_right

/-! ### Pair views (R18, R19, R30) -/

theorem Cells.pairView_eq_append (c : Cells) (p : PairName) :
    c.pairView p = c.get (highCell p) ++ c.get (lowCell p) := compose_eq_append _ _

@[simp] theorem Cells.splitHi_pairView (c : Cells) (p : PairName) : splitHi (c.pairView p) = c.get (highCell p) :=
  splitHi_compose _ _

@[simp] theorem Cells.splitLo_pairView (c : Cells) (p : PairName) : splitLo (c.pairView p) = c.get (lowCell p) :=
  splitLo_compose _ _

/-- The pair that holds a cell (R18). -/
def pairHolding : CellName → PairName
  | .a => .af
  | .f => .af
  | .b => .bc
  | .c => .bc
  | .d => .de
  | .e => .de
  | .h => .hl
  | .l => .hl

/-- A cell is one of the two cells of the pair that holds it, and of no other pair. -/
theorem cell_of_pair_iff (r : CellName) (p : PairName) : (r = highCell p ∨ r = lowCell p) ↔ p = pairHolding r := by
  cases p <;> cases r <;> decide

/-- A cell write shows in the pair view that has the cell, in the cell's place, and in no other (R18, R30). -/
theorem Cells.pairView_set (c : Cells) (r : CellName) (v : Byte) (p : PairName) :
    (c.set r v).pairView p =
      if r = highCell p then v ++ c.get (lowCell p)
      else if r = lowCell p then c.get (highCell p) ++ v
      else c.pairView p := by
  rw [pairView_eq_append, pairView_eq_append]
  split_ifs with hi lo
  · rw [hi, get_set_same, get_set_other _ _ _ _ (highCell_ne_lowCell p).symm]
  · rw [lo, get_set_same, get_set_other _ _ _ _ (highCell_ne_lowCell p)]
  · rw [get_set_other _ _ _ _ (Ne.symm hi), get_set_other _ _ _ _ (Ne.symm lo)]

/-- Storing a value's bytes in the two cells of a pair makes it the pair's view (R65). -/
theorem Cells.pairView_set_pair (c : Cells) (p : PairName) (v : Word) :
    ((c.set (highCell p) (splitHi v)).set (lowCell p) (splitLo v)).pairView p = v := by
  rw [pairView, get_set_same, get_set_other _ _ _ _ (highCell_ne_lowCell p), get_set_same, compose_splitHi_splitLo]

/-- F is the low cell of AF, so a write of F shows in AF alone. -/
theorem Cells.pairView_set_f (c : Cells) (v : Byte) (p : PairName) :
    (c.set .f v).pairView p = if p = .af then c.a ++ v else c.pairView p := by
  by_cases h : p = .af
  · subst h; exact pairView_set c .f v .af
  · have outside : ¬ (CellName.f = highCell p ∨ CellName.f = lowCell p) := mt (cell_of_pair_iff .f p).mp h
    obtain ⟨not_high, not_low⟩ := not_or.mp outside
    rw [pairView_set, if_neg not_high, if_neg not_low, if_neg h]

/-- The four pair views determine the eight cells (R28): each cell is a byte of the view of the pair that holds it. -/
theorem Cells.eq_of_pairView {c d : Cells} (h : ∀ p, c.pairView p = d.pairView p) : c = d := by
  apply eq_of_get
  intro r
  rcases (cell_of_pair_iff r (pairHolding r)).mpr rfl with hr | hr <;> rw [hr]
  · rw [← splitHi_pairView, h, splitHi_pairView]
  · rw [← splitLo_pairView, h, splitLo_pairView]

/-! ### The operations on a named cell or pair -/

@[simp] theorem effect_readPair (p : PairName) (c : Cells) : effect (.readPair p.rid) c = some (.word (c.pairView p), c) := by
  simp only [effect, pairOf_rid, Cells.pairView]

@[simp] theorem effect_writePair (p : PairName) (v : Word) (c : Cells) :
    effect (.writePair p.rid v) c = some (.ack, (c.set (highCell p) (splitHi v)).set (lowCell p) (splitLo v)) := by
  simp only [effect, pairOf_rid]

@[simp] theorem effect_setFlags (fl : Flags) (c : Cells) : effect (.setFlags fl) c = some (.ack, c.set .f (encodeF fl)) := rfl

@[simp] theorem effect_readCell (r : CellName) (c : Cells) : effect (.readCell r.rid) c = some (.byte (c.get r), c) := by
  simp only [effect, cellOf_rid]

@[simp] theorem effect_writeCell (r : CellName) (v : Byte) (c : Cells) :
    effect (.writeCell r.rid v) c = some (.ack, c.set r v) := by
  simp only [effect, cellOf_rid]

theorem exec_writePair (p : PairName) (v : Word) (s : State) :
    exec (.writePair p.rid v) s =
      .next ((s.withCells ((s.cells.set (highCell p) (splitHi v)).set (lowCell p) (splitLo v))).respond .ack) :=
  exec_of_effect (effect_writePair p v s.cells)

theorem exec_setFlags (fl : Flags) (s : State) :
    exec (.setFlags fl) s = .next ((s.withCells (s.cells.set .f (encodeF fl))).respond .ack) :=
  exec_of_effect (effect_setFlags fl s.cells)

theorem exec_writeCell (r : CellName) (v : Byte) (s : State) :
    exec (.writeCell r.rid v) s = .next ((s.withCells (s.cells.set r v)).respond .ack) :=
  exec_of_effect (effect_writeCell r v s.cells)

theorem completesWith_readPair {p : PairName} {s : State} {v : Word} (view : s.cells.pairView p = v) :
    CompletesWith (.readPair p.rid) s (.word v) s.cells :=
  view ▸ completes_of_effect (effect_readPair p s.cells) rfl

theorem completesWith_readCell (r : CellName) (s : State) :
    CompletesWith (.readCell r.rid) s (.byte (s.cells.get r)) s.cells :=
  completes_of_effect (effect_readCell r s.cells) rfl

/-! ### Outcomes by the effect alone (R27) -/

/-- What was performed tells the response, the cells and the recorded faults apart. -/
theorem performed_respond_inj {s : State} {r r' : Response} {c c' : Cells} {faults : List FaultEntry}
    (h : Performed s ((s.withCells c).respond r) r' c' faults) :
    r = r' ∧ c = c' ∧ faultEntries (s.position + 1) r = faults := by
  obtain ⟨o, -, hc⟩ := h.completed
  have same : (⟨r, portsOf r s.freeIndex⟩ : Completion) = ⟨r', o⟩ := by simpa using hc
  exact ⟨congrArg Completion.response same, h.cells, List.append_cancel_left h.faultRecord⟩

/-- Whether a response is recorded does not depend on the number of the step. -/
theorem faultEntries_eq_nil_iff (m n : Nat) (r : Response) : faultEntries m r = [] ↔ faultEntries n r = [] := by
  cases r <;> simp [faultEntries]

/-- An operation completes exactly with its effect, if the response is no Err. -/
theorem completesWith_iff_effect (i : Instr) (s : State) (r : Response) (c : Cells) :
    CompletesWith i s r c ↔ effect i s.cells = some (r, c) ∧ faultEntries 1 r = [] := by
  constructor
  · rintro ⟨t, ht, performed⟩
    obtain ⟨r', c', he, rfl⟩ := exec_next ht
    obtain ⟨rfl, rfl, no_fault⟩ := performed_respond_inj performed
    exact ⟨he, (faultEntries_eq_nil_iff _ _ _).mp no_fault⟩
  · rintro ⟨he, no_fault⟩
    exact completes_of_effect he ((faultEntries_eq_nil_iff _ _ _).mp no_fault)

/-- An operation raises exactly if its effect is the Err with the cells unchanged. -/
theorem raisesInvalid_iff_effect (i : Instr) (s : State) (rid : RegId) :
    RaisesInvalid i s rid ↔ effect i s.cells = some (.err (.invalidRegisterIdentifier rid), s.cells) := by
  refine ⟨?_, raises_of_effect⟩
  rintro ⟨t, ht, performed⟩
  obtain ⟨r', c', he, rfl⟩ := exec_next ht
  obtain ⟨rfl, rfl, -⟩ := performed_respond_inj performed
  exact he

/-- An operation is refused exactly for the word its reserved row holds (R53). -/
theorem exec_refused_iff (i : Instr) (s : State) (x : Refusal) :
    exec i s = .refused x ↔ ∃ cmd, (i = .reservedOp cmd ∨ i = .reservedBit7 cmd) ∧ x = .reservedCommandWord cmd := by
  constructor
  · intro h
    cases he : effect i s.cells with
    | none =>
      obtain ⟨cmd, row, refusal⟩ := exec_of_no_effect he s
      rw [refusal] at h
      cases h
      exact ⟨cmd, row, rfl⟩
    | some x =>
      rw [exec_of_effect he] at h
      cases h
  · rintro ⟨cmd, rfl | rfl, rfl⟩ <;> rfl

/-! ### What changes a cell (R29) -/

/-- The three writes, with the cells before and after: WritePair of a pair (R64), SetFlags (R69), WriteCell of a cell (R74). -/
inductive CellWrite : Instr → Cells → Cells → Prop where
  | pair (p : PairName) (v : Word) (c : Cells) :
    CellWrite (.writePair p.rid v) c ((c.set (highCell p) (splitHi v)).set (lowCell p) (splitLo v))
  | flags (fl : Flags) (c : Cells) : CellWrite (.setFlags fl) c (c.set .f (encodeF fl))
  | cell (r : CellName) (v : Byte) (c : Cells) : CellWrite (.writeCell r.rid v) c (c.set r v)

/-- Every effect leaves the cells or is one of the three writes. -/
theorem effect_keeps_or_writes {i : Instr} {c c' : Cells} {r : Response} (h : effect i c = some (r, c')) :
    c' = c ∨ CellWrite i c c' := by
  cases i with
  | readPair rid => simp only [effect] at h; split at h <;> (cases h; exact .inl rfl)
  | writePair rid v =>
    simp only [effect] at h
    split at h
    · cases h; exact .inl rfl
    · next hp =>
      obtain ⟨p, rfl, cells⟩ := pairOf_eq_some hp
      cases cells
      cases h
      exact .inr (.pair p v c)
  | getFlags => cases h; exact .inl rfl
  | setFlags fl => cases h; exact .inr (.flags fl c)
  | readCell rid => simp only [effect] at h; split at h <;> (cases h; exact .inl rfl)
  | writeCell rid v =>
    simp only [effect] at h
    split at h
    · cases h; exact .inl rfl
    · next q hq =>
      cases cellOf_eq_some hq
      cases h
      exact .inr (.cell q v c)
  | reservedOp cmd => cases h
  | reservedBit7 cmd => cases h

/-- A step that changes the cells is the reset event or performs one of the three writes. -/
theorem step_changes_cells {s t : State} (h : step s = .next t) (changed : t.cells ≠ s.cells) :
    (∃ rest, s.inputs = .reset :: rest) ∨
    (∃ q rest, s.inputs = .op q :: rest ∧ CellWrite (decode q) s.cells t.cells) := by
  rcases step_next h with ⟨q, rest, r, c, inputs, he, rfl⟩ | ⟨rest, inputs, -, -⟩
  · exact .inr ⟨q, rest, inputs, (effect_keeps_or_writes he).resolve_left changed⟩
  · exact .inl ⟨rest, inputs⟩

theorem CellWrite.instr {i : Instr} {c c' : Cells} (h : CellWrite i c c') :
    (∃ (p : PairName) (v : Word), i = .writePair p.rid v) ∨ (∃ fl, i = .setFlags fl) ∨
      (∃ (r : CellName) (v : Byte), i = .writeCell r.rid v) := by
  cases h with
  | pair p v => exact .inl ⟨p, v, rfl⟩
  | flags fl => exact .inr (.inl ⟨fl, rfl⟩)
  | cell r v => exact .inr (.inr ⟨r, v, rfl⟩)

/-- Of the three writes, those that change F name F: SetFlags, WriteCell F and WritePair AF (R22). -/
theorem CellWrite.instr_of_f_changed {i : Instr} {c c' : Cells} (h : CellWrite i c c') (changed : c'.f ≠ c.f) :
    (∃ fl, i = .setFlags fl) ∨ (∃ v, i = .writeCell CellName.f.rid v) ∨ (∃ v, i = .writePair PairName.af.rid v) := by
  cases h with
  | pair p v =>
    cases p with
    | af => exact .inr (.inr ⟨v, rfl⟩)
    | bc => exact absurd rfl changed
    | de => exact absurd rfl changed
    | hl => exact absurd rfl changed
  | flags fl => exact .inl ⟨fl, rfl⟩
  | cell r v =>
    by_cases hr : r = .f
    · subst hr; exact .inr (.inl ⟨v, rfl⟩)
    · exact absurd (Cells.get_set_other c r .f v (Ne.symm hr)) changed

/-! ### The statements about the state -/

/-- Settles O32: a step that changes the cells is a reset or one of the three writes. -/
theorem onlyWritesChangeCells : Obligations.OnlyWritesChangeCells := by
  intro s t h changed
  refine (step_changes_cells h changed).imp_right ?_
  rintro ⟨q, rest, inputs, write⟩
  exact ⟨q, rest, inputs, write.instr⟩

/-- Settles O33: a step that changes F changes the cells, so it is a reset or a write, and of the writes only those that
name F change it. -/
theorem onlyThreeOperationsChangeF : Obligations.OnlyThreeOperationsChangeF := by
  intro s t h changed
  refine (step_changes_cells h (mt (congrArg Cells.f) changed)).imp_right ?_
  rintro ⟨q, rest, inputs, write⟩
  exact ⟨q, rest, inputs, write.instr_of_f_changed changed⟩

/-- Settles O34: each outcome is decided by the effect, a function of the instruction and the cells. -/
theorem onlyTheCellsMatter : Obligations.OnlyTheCellsMatter := by
  intro i s₁ s₂ same
  refine ⟨fun r c => ?_, fun rid => ?_, fun x => ?_⟩
  · rw [completesWith_iff_effect, completesWith_iff_effect, same]
  · rw [raisesInvalid_iff_effect, raisesInvalid_iff_effect, same]
  · rw [exec_refused_iff, exec_refused_iff]

/-- Settles O35, by the frame of a cell write. -/
theorem unnamedCellsAreUnchanged : Obligations.UnnamedCellsAreUnchanged := by
  intro s
  refine ⟨fun r q v other => ?_, fun p q v not_high not_low => ?_, fun fl q other => ?_⟩
  · exact ⟨_, exec_writeCell r v s, Cells.get_set_other _ _ _ _ other⟩
  · refine ⟨_, exec_writePair p v s, ?_⟩
    rw [State.respond_cells, State.withCells_cells, Cells.get_set_other _ _ _ _ not_low,
      Cells.get_set_other _ _ _ _ not_high]
  · exact ⟨_, exec_setFlags fl s, Cells.get_set_other _ _ _ _ other⟩

/-- Settles O37: ReadPair returns the pair view, and a pair view follows each cell write. -/
theorem pairViewsFollowTheCells : Obligations.PairViewsFollowTheCells := by
  refine ⟨fun s p => ?_, fun s r v p => ⟨_, exec_writeCell r v s, ?_⟩, fun s fl p => ⟨_, exec_setFlags fl s, ?_⟩,
    fun r => ?_⟩
  · exact completesWith_readPair (Cells.pairView_eq_append s.cells p)
  · exact completesWith_readPair (Cells.pairView_set s.cells r v p)
  · exact completesWith_readPair (Cells.pairView_set_f s.cells (encodeF fl) p)
  · exact ⟨pairHolding r, (cell_of_pair_iff r _).mpr rfl, fun p => (cell_of_pair_iff r p).mp⟩

/-- Settles O40: the two stores put their byte in F as it is, and the encoder leaves F[3:0] at zero. -/
theorem fStoresAllEightBits : Obligations.FStoresAllEightBits := by
  intro s
  refine ⟨fun v => ?_, fun v => ?_, fun fl => ?_⟩
  · exact ⟨_, exec_writeCell .f v s, rfl, completesWith_readCell .f _⟩
  · have view := Cells.pairView_set_pair s.cells .af v
    exact ⟨_, exec_writePair .af v s, splitLo_eq_extract v, completesWith_readPair (p := .af) view⟩
  · exact ⟨_, exec_setFlags fl s, encodeF_low_nibble fl⟩

/-- Settles O48: the pair views give every cell back, while F = 0x00 and F = 0x01 have the same flag view. -/
theorem pairViewsDetermineCellsFlagViewLosesLowNibble :
    Obligations.PairViewsDetermineCellsFlagViewLosesLowNibble := by
  refine ⟨fun c d => Cells.eq_of_pairView, Cells.reset, Cells.reset.set .f 0x01, by decide, fun r other => ?_, by decide⟩
  exact (Cells.get_set_other _ _ _ _ other).symm

end Sys2Proof.Machine

/-! ## Repetition, and what later inputs change (R37, R39, R40, R43)

Doing an operation again does what it did the first time and finds its cells as it leaves them; and inputs added at the
end of the list pass through a step, and so through a run, unseen. -/

namespace Sys2Proof.Machine

/-! ### Doing an operation again (R37) -/

/-- Writing into a cell what it holds changes nothing. -/
theorem Cells.set_eq_self {c : Cells} {r : CellName} {v : Byte} (holds : c.get r = v) : c.set r v = c :=
  holds ▸ set_get c r

/-- A write that finds its own cells leaves them: what it writes does not depend on the cells before it. -/
theorem CellWrite.effect_again {i : Instr} {c c' : Cells} (write : CellWrite i c c') : effect i c' = some (.ack, c') := by
  cases write with
  | pair p v =>
    have high_holds : ((c.set (highCell p) (splitHi v)).set (lowCell p) (splitLo v)).get (highCell p) = splitHi v := by
      rw [Cells.get_set_other _ _ _ _ (highCell_ne_lowCell p), Cells.get_set_same]
    rw [effect_writePair, Cells.set_eq_self high_holds, Cells.set_set_same]
  | flags fl => rw [effect_setFlags, Cells.set_set_same]
  | cell r v => rw [effect_writeCell, Cells.set_set_same]

/-- Every operation has an effect on the cells it left, and leaves them. -/
theorem effect_idempotent {i : Instr} {c c' : Cells} {r : Response} (h : effect i c = some (r, c')) :
    ∃ r', effect i c' = some (r', c') := by
  rcases effect_keeps_or_writes h with rfl | write
  · exact ⟨r, h⟩
  · exact ⟨.ack, write.effect_again⟩

/-- A read leaves the cells: it is none of the three writes. -/
theorem effect_read_keeps_cells {i : Instr} {c c' : Cells} {r : Response}
    (read : i = .getFlags ∨ ∃ rid, i = .readPair rid ∨ i = .readCell rid) (h : effect i c = some (r, c')) : c' = c := by
  refine (effect_keeps_or_writes h).resolve_right fun write => ?_
  rcases read with rfl | ⟨rid, rfl | rfl⟩ <;> cases write

theorem State.responses_respond (s : State) (r : Response) : (s.respond r).responses = s.responses ++ [r] := by
  simp [State.responses]

/-! ### Inputs presented after the others (R39) -/

/-- The state with more inputs after those it holds. -/
def State.followedBy (s : State) (later : List Input) : State := { s with inputs := s.inputs ++ later }

/-- The answer with more inputs after those of its state; an answer that stops has no state to hold them. -/
def Answer.followedBy (later : List Input) : Answer → Answer
  | .next t => .next (t.followedBy later)
  | .fault x => .fault x
  | .refused x => .refused x

theorem exec_followedBy (i : Instr) (s : State) (later : List Input) :
    exec i (s.followedBy later) = Answer.followedBy later (exec i s) := by
  cases he : effect i s.cells with
  | none =>
    obtain ⟨cmd, row, refusal⟩ := exec_of_no_effect he s
    rw [refusal]
    exact (exec_refused_iff i _ _).mpr ⟨cmd, row, rfl⟩
  | some x =>
    have same : effect i (s.followedBy later).cells = some x := he
    rw [exec_of_effect he, exec_of_effect same]
    rfl

theorem resetEvent_followedBy (s : State) (later : List Input) :
    resetEvent (s.followedBy later) = Answer.followedBy later (resetEvent s) := by
  have same : (s.followedBy later).position = s.position := rfl
  simp only [resetEvent, same]
  split <;> rfl

/-- A step that has an input takes it and does not see those added after the list. -/
theorem step_followedBy {s : State} (presented : s.inputs ≠ []) (later : List Input) :
    step (s.followedBy later) = Answer.followedBy later (step s) := by
  obtain ⟨x, rest, inputs⟩ := List.exists_cons_of_ne_nil presented
  have inputs' : (s.followedBy later).inputs = x :: (rest ++ later) := congrArg (· ++ later) inputs
  cases x with
  | op q => rw [step_op inputs, step_op inputs']; exact exec_followedBy (decode q) { s with inputs := rest } later
  | reset => rw [step_reset inputs, step_reset inputs']; exact resetEvent_followedBy { s with inputs := rest } later
  | contended q₁ q₂ => rw [step_contended inputs, step_contended inputs']; rfl

/-- A step that answers a next state has taken one input off the list (R46). -/
theorem step_next_inputs {s t : State} (h : step s = .next t) : s.inputs.length = t.inputs.length + 1 := by
  rcases step_next h with ⟨q, rest, r, c, inputs, -, rfl⟩ | ⟨rest, inputs, -, rfl⟩ <;>
    exact congrArg List.length inputs

/-- A run of no more steps than it has inputs does not see those added after the list. -/
theorem runSteps_followedBy (later : List Input) (k : Nat) (s : State) (enough : k ≤ s.inputs.length) :
    runSteps k (s.followedBy later) = Answer.followedBy later (runSteps k s) := by
  induction k generalizing s with
  | zero => rfl
  | succ k ih =>
    have presented : s.inputs ≠ [] := List.ne_nil_of_length_pos (by omega)
    rw [runSteps, runSteps, step_followedBy presented]
    cases h : step s with
    | next t =>
      have taken := step_next_inputs h
      exact ih t (by omega)
    | fault x => rfl
    | refused x => rfl

theorem agreeButFor_followedBy (later : List Input) (o : Answer) : AgreeButFor later (Answer.followedBy later o) o := by
  cases o with
  | next t => exact ⟨rfl, rfl, rfl, rfl, rfl⟩
  | fault x => exact rfl
  | refused x => exact rfl

/-! ### The statements about access and order -/

/-- Settles O21: an instruction with an effect performs it, one without is a reserved row. -/
theorem everyOperationCompletesOrIsRefused : Obligations.EveryOperationCompletesOrIsRefused := by
  intro i s
  cases he : effect i s.cells with
  | none => exact .inr (exec_of_no_effect he s)
  | some x =>
    obtain ⟨t, ht, performed⟩ := exec_performed he
    exact .inl ⟨t, x.1, x.2, _, ht, performed⟩

/-- Settles O47: a read's effect keeps the cells and depends on them alone, and every effect is idempotent on the cells. -/
theorem readsArePureAndWritesIdempotent : Obligations.ReadsArePureAndWritesIdempotent := by
  refine ⟨fun i s t read h => ?_, fun i s t h => ?_⟩
  · obtain ⟨r, c, he, rfl⟩ := exec_next h
    refine ⟨effect_read_keeps_cells read he, r, State.responses_respond _ r, fun u same => ?_⟩
    exact ⟨_, exec_of_effect ((congrArg (effect i) same).trans he), State.responses_respond _ r⟩
  · obtain ⟨r, c, he, rfl⟩ := exec_next h
    obtain ⟨r', again⟩ := effect_idempotent he
    exact ⟨_, exec_of_effect again, rfl⟩

/-- Settles O50: the inputs `later` pass through the run of the inputs `now` unseen. -/
theorem laterOperationsAreNotSeen : Obligations.LaterOperationsAreNotSeen := by
  intro s now later
  have unseen := runSteps_followedBy later now.length { s with inputs := now } le_rfl
  exact unseen ▸ agreeButFor_followedBy later _

/-- Settles O25, by the step on two operations at once. -/
theorem concurrentIssueIsRefused : Obligations.ConcurrentIssueIsRefused :=
  fun _ _ _ _ => step_contended rfl

end Sys2Proof.Machine

/-! ## Encoding: words and their operations (R47 to R60)

A command word has bit 7 set or is `commandWord op rid` for its two fields. So what decodes is said once for each operation
field, and the statements about all requests are proved along this split. -/

namespace Sys2Proof.Machine

/-! ### The words with bit 7 clear -/

/-- A word with bit 7 clear is its op and rid fields (R47). -/
theorem eq_commandWord_of_bit7_clear {cmd : Byte} (h : cmd[7] = false) : cmd = commandWord (opField cmd) (ridField cmd) := by
  revert cmd; decide

theorem commandWord_toNat (op : BitVec 3) (rid : RegId) : (commandWord op rid).toNat = 16 * op.toNat + rid.toNat := by
  revert op rid; decide

/-- To show something of every request, show it of the words with bit 7 set and of `commandWord op rid`. -/
theorem request_cases {P : Request → Prop}
    (bit7 : ∀ cmd wdata fin, cmd[7] = true → P ⟨cmd, wdata, fin⟩)
    (fields : ∀ op rid wdata fin, P ⟨commandWord op rid, wdata, fin⟩) (q : Request) : P q := by
  obtain ⟨cmd, wdata, fin⟩ := q
  cases h : cmd[7] with
  | true => exact bit7 cmd wdata fin h
  | false => rw [eq_commandWord_of_bit7_clear h]; exact fields _ _ _ _

section
variable (rid : RegId) (wdata : Word) (fin : FlagBits)

theorem decode_commandWord_readPair : decode ⟨commandWord 0b000 rid, wdata, fin⟩ = .readPair rid := by
  rw [decode_readPair (r := ⟨commandWord _ rid, wdata, fin⟩) (commandWord_bit7 _ rid) (opField_commandWord _ rid),
    ridField_commandWord]

theorem decode_commandWord_writePair : decode ⟨commandWord 0b001 rid, wdata, fin⟩ = .writePair rid wdata := by
  rw [decode_writePair (r := ⟨commandWord _ rid, wdata, fin⟩) (commandWord_bit7 _ rid) (opField_commandWord _ rid),
    ridField_commandWord]

theorem decode_commandWord_getFlags : decode ⟨commandWord 0b010 rid, wdata, fin⟩ = .getFlags :=
  decode_getFlags (r := ⟨commandWord _ rid, wdata, fin⟩) (commandWord_bit7 _ rid) (opField_commandWord _ rid)

theorem decode_commandWord_setFlags :
    decode ⟨commandWord 0b011 rid, wdata, fin⟩ = .setFlags (flagsOfFin fin) :=
  decode_setFlags (r := ⟨commandWord _ rid, wdata, fin⟩) (commandWord_bit7 _ rid) (opField_commandWord _ rid)

theorem decode_commandWord_readCell : decode ⟨commandWord 0b100 rid, wdata, fin⟩ = .readCell rid := by
  rw [decode_readCell (r := ⟨commandWord _ rid, wdata, fin⟩) (commandWord_bit7 _ rid) (opField_commandWord _ rid),
    ridField_commandWord]

theorem decode_commandWord_writeCell :
    decode ⟨commandWord 0b101 rid, wdata, fin⟩ = .writeCell rid (cellOperand wdata) := by
  rw [decode_writeCell (r := ⟨commandWord _ rid, wdata, fin⟩) (commandWord_bit7 _ rid) (opField_commandWord _ rid),
    ridField_commandWord]

theorem decode_commandWord_reservedOp {op : BitVec 3} (h : op = 0b110 ∨ op = 0b111) :
    decode ⟨commandWord op rid, wdata, fin⟩ = .reservedOp (commandWord op rid) :=
  decode_reservedOp (r := ⟨commandWord op rid, wdata, fin⟩) (commandWord_bit7 op rid) (by rwa [opField_commandWord])

end

/-- The word of a number: its op is the number's high digit in base 16, its rid the low one. -/
theorem ofNat_eq_commandWord {m n : Nat} {op : BitVec 3} (high : m / 16 = op.toNat) (low : m % 16 = n % 16) :
    BitVec.ofNat 8 m = commandWord op (BitVec.ofNat 4 n) := by
  have := op.isLt
  apply BitVec.eq_of_toNat_eq
  rw [commandWord_toNat, BitVec.toNat_ofNat, BitVec.toNat_ofNat]
  omega

/-- What decodes from the word of a number, by its two digits in base 16. -/
theorem decode_ofNat {m n : Nat} (op : BitVec 3) (wdata : Word) (fin : FlagBits) (high : m / 16 = op.toNat)
    (low : m % 16 = n % 16) :
    decode ⟨BitVec.ofNat 8 m, wdata, fin⟩ = decode ⟨commandWord op (BitVec.ofNat 4 n), wdata, fin⟩ := by
  rw [ofNat_eq_commandWord high low]

/-! ### Decode undoes encode -/

/-- WriteCell's byte comes back from wdata[7:0] (R49). -/
theorem cellOperand_setWidth (v : Byte) : cellOperand (v.setWidth 16) = v :=
  (BitVec.extractLsb'_setWidth_of_le (by decide)).trans BitVec.extractLsb'_eq_self

theorem reservedOp_wellFormed_fields {cmd : Byte} (h : (Instr.reservedOp cmd).wellFormed = true) :
    cmd[7] = false ∧ (opField cmd = 0b110 ∨ opField cmd = 0b111) := by
  revert cmd; decide

theorem reservedBit7_wellFormed_iff (cmd : Byte) : (Instr.reservedBit7 cmd).wellFormed = true ↔ cmd[7] = true := by
  revert cmd; decide

theorem decode_encode {i : Instr} (h : i.wellFormed = true) : decode (encode i) = i := by
  cases i with
  | readPair rid => exact decode_commandWord_readPair rid 0 0
  | writePair rid v => exact decode_commandWord_writePair rid v 0
  | getFlags => exact decode_commandWord_getFlags 0 0 0
  | setFlags fl =>
    rw [encode, decode_commandWord_setFlags, flagsOfFin_finOfFlags]
  | readCell rid => exact decode_commandWord_readCell rid 0 0
  | writeCell rid v => rw [encode, decode_commandWord_writeCell, cellOperand_setWidth]
  | reservedOp cmd =>
    obtain ⟨bit7_clear, op⟩ := reservedOp_wellFormed_fields h
    exact decode_reservedOp bit7_clear op
  | reservedBit7 cmd => exact decode_of_bit7 ((reservedBit7_wellFormed_iff cmd).mp h)

/-- Settles O1: each operation's word has its op and rid in their fields and its operand on its port, and a well-formed
reserved instruction holds a word of its row. -/
theorem decodeUndoesEncode : Obligations.DecodeUndoesEncode := fun _ => decode_encode

/-- Settles O4, one operation after the other. -/
theorem operandsComeFromTheirPorts : Obligations.OperandsComeFromTheirPorts := by
  intro rid wdata fin
  exact ⟨decode_commandWord_readPair rid wdata fin, decode_commandWord_writePair rid wdata fin,
    decode_commandWord_getFlags rid wdata fin, decode_commandWord_setFlags rid wdata fin,
    decode_commandWord_readCell rid wdata fin, decode_commandWord_writeCell rid wdata fin⟩

/-! ### The rows of the opcode table (R48, R53) -/

theorem row_mem_opcodeTable (i : Instr) : i.row ∈ opcodeTable := by
  cases i <;> simp [Instr.row, opcodeTable]

/-- No command word lies in two rows of the table. -/
theorem opcodeTable_disjoint (cmd : Byte) : ∀ row ∈ opcodeTable, ∀ row' ∈ opcodeTable,
    row.covers cmd = true → row'.covers cmd = true → row = row' := by
  revert cmd; decide

/-- The mask 0xF0 keeps bit 7 and the op field. -/
theorem commandWord_and_F0 (op : BitVec 3) (rid : RegId) : commandWord op rid &&& 0xF0 = commandWord op 0 := by
  revert op rid; decide

/-- Each operation's row is that of its word with rid 0 (R48). -/
theorem covers_commandWord (op : BitVec 3) (rid : RegId) :
    OpcodeRow.covers ⟨0xF0, commandWord op 0⟩ (commandWord op rid) = true :=
  beq_iff_eq.mpr (commandWord_and_F0 op rid)

theorem reservedOp_commandWord {op : BitVec 3} (h : op = 0b110 ∨ op = 0b111) (rid : RegId) :
    (Instr.reservedOp (commandWord op rid)).wellFormed = true := by
  rcases h with rfl | rfl <;> (revert rid; decide)

/-- What decodes is well formed, and the word lies in its row, whatever rid a flag word has (R48, R53, R56). -/
theorem decode_wellFormed_and_covers (q : Request) :
    (decode q).wellFormed = true ∧ (decode q).row.covers q.cmd = true := by
  induction q using request_cases with
  | bit7 cmd wdata fin h =>
    have wf := (reservedBit7_wellFormed_iff cmd).mpr h
    rw [decode_of_bit7 (r := ⟨cmd, wdata, fin⟩) h]
    exact ⟨wf, Laws.RowCover.reservedBit7 cmd wf⟩
  | fields op rid wdata fin =>
    rcases opField_cases op with rfl | rfl | rfl | rfl | rfl | rfl | h
    · rw [decode_commandWord_readPair]; exact ⟨rfl, covers_commandWord _ rid⟩
    · rw [decode_commandWord_writePair]; exact ⟨rfl, covers_commandWord _ rid⟩
    · rw [decode_commandWord_getFlags]; exact ⟨rfl, covers_commandWord _ rid⟩
    · rw [decode_commandWord_setFlags]; exact ⟨rfl, covers_commandWord _ rid⟩
    · rw [decode_commandWord_readCell]; exact ⟨rfl, covers_commandWord _ rid⟩
    · rw [decode_commandWord_writeCell]; exact ⟨rfl, covers_commandWord _ rid⟩
    · have wf := reservedOp_commandWord h rid
      rw [decode_commandWord_reservedOp rid wdata fin h]
      exact ⟨wf, Laws.RowCover.reservedOp _ wf⟩

/-- Settles O2: the word lies in the row of what it decodes to, and no word lies in two rows. -/
theorem decodedWordLiesInOneRow : Obligations.DecodedWordLiesInOneRow := by
  intro q
  obtain ⟨wf, covers⟩ := decode_wellFormed_and_covers q
  have own := row_mem_opcodeTable (decode q)
  refine ⟨wf, own, fun row mem => ⟨fun h => opcodeTable_disjoint q.cmd row mem _ own h covers, ?_⟩⟩
  rintro rfl
  exact covers

/-! ### The canonical words (R56) -/

theorem bit7_and_F0 {cmd : Byte} (h : cmd[7] = true) : cmd &&& 0xF0 ≠ 0x20 ∧ cmd &&& 0xF0 ≠ 0x30 := by
  revert cmd; decide

/-- Settles O3: a reserved instruction holds its word, and an operation's word is given back by its two fields unless it is a
flag word, whose rid is dropped. -/
theorem encodeGivesTheCanonicalWord : Obligations.EncodeGivesTheCanonicalWord := by
  intro q
  induction q using request_cases with
  | bit7 cmd wdata fin h =>
    obtain ⟨not_get, not_set⟩ := bit7_and_F0 h
    rw [decode_of_bit7 (r := ⟨cmd, wdata, fin⟩) h, if_neg not_get, if_neg not_set]
    rfl
  | fields op rid wdata fin =>
    rw [commandWord_and_F0]
    rcases opField_cases op with rfl | rfl | rfl | rfl | rfl | rfl | h
    · rw [decode_commandWord_readPair]; rfl
    · rw [decode_commandWord_writePair]; rfl
    · rw [decode_commandWord_getFlags]; rfl
    · rw [decode_commandWord_setFlags]; rfl
    · rw [decode_commandWord_readCell]; rfl
    · rw [decode_commandWord_writeCell]; rfl
    · rw [decode_commandWord_reservedOp rid wdata fin h]
      rcases h with rfl | rfl <;> rfl

/-! ### Reserved words (R53) -/

theorem reservedWord_iff (cmd : Byte) :
    reservedWord cmd = true ↔ cmd[7] = true ∨ opField cmd = 0b110 ∨ opField cmd = 0b111 := by
  simp [reservedWord, or_assoc]

theorem decode_of_reservedWord {q : Request} (h : reservedWord q.cmd = true) :
    decode q = .reservedBit7 q.cmd ∨ decode q = .reservedOp q.cmd := by
  cases h7 : q.cmd[7] with
  | true => exact .inl (decode_of_bit7 h7)
  | false =>
    have op := ((reservedWord_iff q.cmd).mp h).resolve_left (by simp [h7])
    exact .inr (decode_reservedOp h7 op)

theorem exec_of_reservedWord {q : Request} (h : reservedWord q.cmd = true) (s : State) :
    exec (decode q) s = .refused (.reservedCommandWord q.cmd) := by
  rcases decode_of_reservedWord h with hd | hd <;> (rw [hd]; rfl)

theorem bit7_words_count : (commandWords.filter (fun w => w[7])).length = 128 := by rfl

theorem reserved_op_words_count :
    (commandWords.filter (fun w => !w[7] && (opField w == 0b110 || opField w == 0b111))).length = 32 := by rfl

/-- Settles O14: a reserved word decodes to a reserved instruction that holds it, and that refuses by it. -/
theorem reservedWordsAreRefused : Obligations.ReservedWordsAreRefused := by
  refine ⟨bit7_words_count, reserved_op_words_count, fun _ _ => rfl, fun _ _ => rfl, fun q s rest h => ?_⟩
  have reserved := (reservedWord_iff q.cmd).mpr h
  refine ⟨decode_of_reservedWord reserved, ?_⟩
  rw [step_op rfl]
  exact exec_of_reservedWord reserved _

/-! ### Accepted identifiers (R51) -/

theorem pair_of_accepted {rid : RegId} (h : 8 ≤ rid.toNat ∧ rid.toNat ≤ 11) : ∃ p : PairName, rid = p.rid := by
  cases hp : pairOf rid with
  | none => have := (pairOf_eq_none_iff rid).mp hp; omega
  | some x => obtain ⟨p, rfl, -⟩ := pairOf_eq_some hp; exact ⟨p, rfl⟩

theorem cell_of_accepted {rid : RegId} (h : rid.toNat ≤ 7) : ∃ r : CellName, rid = r.rid := by
  cases hr : cellOf rid with
  | none => have := (cellOf_eq_none_iff rid).mp hr; omega
  | some r => exact ⟨r, cellOf_eq_some hr⟩

theorem pairOf_eq_none {rid : RegId} (h : ¬ (8 ≤ rid.toNat ∧ rid.toNat ≤ 11)) : pairOf rid = none :=
  (pairOf_eq_none_iff rid).mpr (by omega)

theorem cellOf_eq_none {rid : RegId} (h : ¬ rid.toNat ≤ 7) : cellOf rid = none :=
  (cellOf_eq_none_iff rid).mpr (by omega)

section
variable (s : State) {rid : RegId}

theorem raises_readPair (h : ¬ (8 ≤ rid.toNat ∧ rid.toNat ≤ 11)) : RaisesInvalid (.readPair rid) s rid :=
  raises_of_effect (by simp only [effect, pairOf_eq_none h])

theorem raises_writePair (v : Word) (h : ¬ (8 ≤ rid.toNat ∧ rid.toNat ≤ 11)) : RaisesInvalid (.writePair rid v) s rid :=
  raises_of_effect (by simp only [effect, pairOf_eq_none h])

theorem raises_readCell (h : ¬ rid.toNat ≤ 7) : RaisesInvalid (.readCell rid) s rid :=
  raises_of_effect (by simp only [effect, cellOf_eq_none h])

theorem raises_writeCell (v : Byte) (h : ¬ rid.toNat ≤ 7) : RaisesInvalid (.writeCell rid v) s rid :=
  raises_of_effect (by simp only [effect, cellOf_eq_none h])

theorem completes_readPair (h : 8 ≤ rid.toNat ∧ rid.toNat ≤ 11) :
    ∃ v, CompletesWith (.readPair rid) s (.word v) s.cells := by
  obtain ⟨p, rfl⟩ := pair_of_accepted h
  exact ⟨_, completesWith_readPair rfl⟩

theorem completes_writePair (v : Word) (h : 8 ≤ rid.toNat ∧ rid.toNat ≤ 11) :
    ∃ c, CompletesWith (.writePair rid v) s .ack c := by
  obtain ⟨p, rfl⟩ := pair_of_accepted h
  exact ⟨_, completes_of_effect (effect_writePair p v s.cells) rfl⟩

theorem completes_readCell (h : rid.toNat ≤ 7) : ∃ v, CompletesWith (.readCell rid) s (.byte v) s.cells := by
  obtain ⟨r, rfl⟩ := cell_of_accepted h
  exact ⟨_, completesWith_readCell r s⟩

theorem completes_writeCell (v : Byte) (h : rid.toNat ≤ 7) : ∃ c, CompletesWith (.writeCell rid v) s .ack c := by
  obtain ⟨r, rfl⟩ := cell_of_accepted h
  exact ⟨_, completes_of_effect (effect_writeCell r v s.cells) rfl⟩

end

/-- An operation does not both complete and raise the error. -/
theorem CompletesWith.not_raises {i : Instr} {s : State} {r : Response} {c : Cells} (h : CompletesWith i s r c)
    (rid : RegId) : ¬ RaisesInvalid i s rid := by
  intro raises
  obtain ⟨he, no_fault⟩ := (completesWith_iff_effect i s r c).mp h
  cases he.symm.trans ((raisesInvalid_iff_effect i s rid).mp raises)
  cases no_fault

/-- Where an operation completes for the accepted rids and raises the error for the others, each happens for no more. -/
theorem accepts_exactly {i : Instr} {s : State} {rid : RegId} {accepted : Prop}
    (completes : accepted → ∃ r c, CompletesWith i s r c) (raises : ¬ accepted → RaisesInvalid i s rid) :
    ((∃ r c, CompletesWith i s r c) ↔ accepted) ∧ (RaisesInvalid i s rid ↔ ¬ accepted) := by
  refine ⟨⟨fun ⟨r, c, h⟩ => ?_, completes⟩, fun h ha => ?_, raises⟩
  · by_contra rejected
    exact h.not_raises rid (raises rejected)
  · obtain ⟨r, c, hc⟩ := completes ha
    exact hc.not_raises rid h

theorem getFlags_not_raises (s : State) (rid : RegId) : ¬ RaisesInvalid .getFlags s rid :=
  (completes_of_effect rfl rfl : CompletesWith .getFlags s _ _).not_raises rid

theorem setFlags_not_raises (fl : Flags) (s : State) (rid : RegId) : ¬ RaisesInvalid (.setFlags fl) s rid :=
  (completes_of_effect (effect_setFlags fl s.cells) rfl : CompletesWith (.setFlags fl) s _ _).not_raises rid

/-- Settles O15: the four operations with a rid accept exactly theirs, and the flag words decode without looking at it. -/
theorem acceptedIdentifiers : Obligations.AcceptedIdentifiers := by
  intro s rid v b
  obtain ⟨readPair, readPair_err⟩ := accepts_exactly
    (fun h => (completes_readPair s h).elim fun _ hc => ⟨_, _, hc⟩) (raises_readPair s (rid := rid))
  obtain ⟨writePair, writePair_err⟩ := accepts_exactly
    (fun h => ⟨_, completes_writePair s v h⟩) (raises_writePair s (rid := rid) v)
  obtain ⟨readCell, readCell_err⟩ := accepts_exactly
    (fun h => (completes_readCell s h).elim fun _ hc => ⟨_, _, hc⟩) (raises_readCell s (rid := rid))
  obtain ⟨writeCell, writeCell_err⟩ := accepts_exactly
    (fun h => ⟨_, completes_writeCell s b h⟩) (raises_writeCell s (rid := rid) b)
  refine ⟨readPair, writePair, readCell, writeCell, readPair_err, writePair_err, readCell_err, writeCell_err,
    fun wdata fin any => ?_⟩
  have get (x : RegId) : decode ⟨0b0010#4 ++ x, wdata, fin⟩ = .getFlags := decode_commandWord_getFlags x wdata fin
  have set (x : RegId) : decode ⟨0b0011#4 ++ x, wdata, fin⟩ = .setFlags (flagsOfFin fin) :=
    decode_commandWord_setFlags x wdata fin
  rw [get, get, set, set]
  exact ⟨getFlags_not_raises s any, setFlags_not_raises _ s any, rfl, rfl⟩

/-! ### The 256 words sorted (R60) -/

theorem reservedWord_ofNat {n : Nat} (low : 0x60 ≤ n) (high : n < 0x100) : reservedWord (BitVec.ofNat 8 n) = true := by
  have all : ∀ cmd : Byte, 0x60 ≤ cmd.toNat → reservedWord cmd = true := by decide
  apply all
  rw [BitVec.toNat_ofNat]
  omega

section
variable {m n : Nat} {wdata : Word} {fin : FlagBits}

theorem decode_ofNat_readPair (high : m / 16 = 0) (low : m % 16 = n % 16) :
    decode ⟨BitVec.ofNat 8 m, wdata, fin⟩ = .readPair (BitVec.ofNat 4 n) :=
  (decode_ofNat 0b000 wdata fin high low).trans (decode_commandWord_readPair _ _ _)

theorem decode_ofNat_writePair (high : m / 16 = 1) (low : m % 16 = n % 16) :
    decode ⟨BitVec.ofNat 8 m, wdata, fin⟩ = .writePair (BitVec.ofNat 4 n) wdata :=
  (decode_ofNat 0b001 wdata fin high low).trans (decode_commandWord_writePair _ _ _)

theorem decode_ofNat_getFlags (high : m / 16 = 2) : decode ⟨BitVec.ofNat 8 m, wdata, fin⟩ = .getFlags :=
  (decode_ofNat 0b010 wdata fin high rfl).trans (decode_commandWord_getFlags _ _ _)

theorem decode_ofNat_setFlags (high : m / 16 = 3) :
    decode ⟨BitVec.ofNat 8 m, wdata, fin⟩ = .setFlags (flagsOfFin fin) :=
  (decode_ofNat 0b011 wdata fin high rfl).trans (decode_commandWord_setFlags _ _ _)

theorem decode_ofNat_readCell (high : m / 16 = 4) (low : m % 16 = n % 16) :
    decode ⟨BitVec.ofNat 8 m, wdata, fin⟩ = .readCell (BitVec.ofNat 4 n) :=
  (decode_ofNat 0b100 wdata fin high low).trans (decode_commandWord_readCell _ _ _)

theorem decode_ofNat_writeCell (high : m / 16 = 5) (low : m % 16 = n % 16) :
    decode ⟨BitVec.ofNat 8 m, wdata, fin⟩ = .writeCell (BitVec.ofNat 4 n) (cellOperand wdata) :=
  (decode_ofNat 0b101 wdata fin high low).trans (decode_commandWord_writeCell _ _ _)

end

/-- Settles O7: the high digit of a word is its op, and the low digit decides between completion and the error. -/
theorem commandWordsSorted : Obligations.CommandWordsSorted := by
  intro s wdata fin
  refine ⟨bit7_words_count, reserved_op_words_count, fun n hn => ?_, fun n hi => ?_, fun n lo hi => ?_, fun n lo hi => ?_,
    fun n lo hi => ?_, fun n lo hi => ?_, fun n lo hi => ?_, fun n lo hi => ?_, fun n lo hi => ?_, fun n lo hi => ?_,
    fun n lo hi => ?_, fun n lo hi => ?_, fun n lo hi => ?_⟩
  · exact ⟨decode_ofNat_readPair (by omega) (by omega), decode_ofNat_writePair (by omega) (by omega),
      decode_ofNat_getFlags (by omega), decode_ofNat_setFlags (by omega),
      decode_ofNat_readCell (by omega) (by omega), decode_ofNat_writeCell (by omega) (by omega)⟩
  · rw [decode_ofNat_readPair (by omega) rfl]
    exact raises_readPair s (by rw [BitVec.toNat_ofNat]; omega)
  · rw [decode_ofNat_readPair (by omega) rfl]
    exact completes_readPair s (by rw [BitVec.toNat_ofNat]; omega)
  · by_cases read : n < 0x10
    · rw [decode_ofNat_readPair (by omega) rfl]
      exact raises_readPair s (by rw [BitVec.toNat_ofNat]; omega)
    · rw [decode_ofNat_writePair (by omega) rfl]
      exact raises_writePair s wdata (by rw [BitVec.toNat_ofNat]; omega)
  · rw [decode_ofNat_writePair (by omega) rfl]
    exact completes_writePair s wdata (by rw [BitVec.toNat_ofNat]; omega)
  · rw [decode_ofNat_writePair (by omega) rfl]
    exact raises_writePair s wdata (by rw [BitVec.toNat_ofNat]; omega)
  · rw [decode_ofNat_getFlags (by omega)]
    exact ⟨_, completes_of_effect rfl rfl⟩
  · rw [decode_ofNat_setFlags (by omega)]
    exact ⟨_, completes_of_effect (effect_setFlags _ _) rfl⟩
  · rw [decode_ofNat_readCell (by omega) rfl]
    exact completes_readCell s (by rw [BitVec.toNat_ofNat]; omega)
  · rw [decode_ofNat_readCell (by omega) rfl]
    exact raises_readCell s (by rw [BitVec.toNat_ofNat]; omega)
  · rw [decode_ofNat_writeCell (by omega) rfl]
    exact completes_writeCell s _ (by rw [BitVec.toNat_ofNat]; omega)
  · rw [decode_ofNat_writeCell (by omega) rfl]
    exact raises_writeCell s _ (by rw [BitVec.toNat_ofNat]; omega)
  · exact exec_of_reservedWord (q := ⟨BitVec.ofNat 8 n, wdata, fin⟩) (reservedWord_ofNat lo hi) s

/-! ### Responses and the step (R46, R55) -/

/-- The responses an instruction can give, by R55. -/
def ResponseKind (i : Instr) (r : Response) : Prop :=
  match i with
  | .readPair rid => (∃ v, r = .word v) ∨ r = .err (.invalidRegisterIdentifier rid)
  | .writePair rid _ => r = .ack ∨ r = .err (.invalidRegisterIdentifier rid)
  | .getFlags => ∃ fl, r = .flagsR fl
  | .setFlags _ => r = .ack
  | .readCell rid => (∃ v, r = .byte v) ∨ r = .err (.invalidRegisterIdentifier rid)
  | .writeCell rid _ => r = .ack ∨ r = .err (.invalidRegisterIdentifier rid)
  | .reservedOp _ => False
  | .reservedBit7 _ => False

theorem effect_responseKind {i : Instr} {c c' : Cells} {r : Response} (h : effect i c = some (r, c')) :
    ResponseKind i r := by
  cases i with
  | readPair rid =>
    simp only [effect] at h
    split at h <;> cases h
    · exact .inr rfl
    · exact .inl ⟨_, rfl⟩
  | writePair rid v =>
    simp only [effect] at h
    split at h <;> cases h
    · exact .inr rfl
    · exact .inl rfl
  | getFlags => cases h; exact ⟨_, rfl⟩
  | setFlags fl => cases h; rfl
  | readCell rid =>
    simp only [effect] at h
    split at h <;> cases h
    · exact .inr rfl
    · exact .inl ⟨_, rfl⟩
  | writeCell rid v =>
    simp only [effect] at h
    split at h <;> cases h
    · exact .inr rfl
    · exact .inl rfl
  | reservedOp cmd => cases h
  | reservedBit7 cmd => cases h

/-- The flag port's bits, from bit 3: zero, subtract, halfCarry, carry (R52). -/
theorem finOfFlags_bits (fl : Flags) : (finOfFlags fl)[3] = fl.zero ∧ (finOfFlags fl)[2] = fl.subtract ∧
    (finOfFlags fl)[1] = fl.halfCarry ∧ (finOfFlags fl)[0] = fl.carry := by
  have back := flagsOfFin_finOfFlags fl
  exact ⟨congrArg Flags.zero back, congrArg Flags.subtract back, congrArg Flags.halfCarry back, congrArg Flags.carry back⟩

/-- Settles O20: a next state is one response of the effect, carried by its ports. -/
theorem responsesAndPorts : Obligations.ResponsesAndPorts := by
  intro i s t h
  obtain ⟨r, c, he, rfl⟩ := exec_next h
  refine ⟨r, portsOf r s.freeIndex, rfl, by cases i <;> exact effect_responseKind he, ?_⟩
  have carries := portsOf_carries r s.freeIndex
  cases r with
  | word v => exact carries
  | byte v => exact carries
  | flagsR fl =>
    obtain ⟨fout, no_err⟩ := carries
    obtain ⟨zero, subtract, halfCarry, carry⟩ := finOfFlags_bits fl
    simp only [fout]
    exact ⟨zero, subtract, halfCarry, carry, no_err⟩
  | ack => exact carries
  | err e => exact carries

/-- Settles O24, by the inversion of step: the operation's effect, or the reset event's. -/
theorem oneOperationPerStep : Obligations.OneOperationPerStep := by
  intro s t h
  rcases step_next h with ⟨q, rest, r, c, inputs, he, rfl⟩ | ⟨rest, inputs, -, rfl⟩
  · exact .inl ⟨q, rest, r, c, _, inputs, exec_of_effect he, respond_performed _ c r⟩
  · exact .inr ⟨rest, inputs, rfl⟩

/-- Settles O22, by the step on an operation. -/
theorem stepRunsTheDecodedInstruction : Obligations.StepRunsTheDecodedInstruction :=
  fun _ _ _ inputs => step_op inputs

/-! ### Assembled lines (R58) -/

section
variable {x : AsmReg} {rid : RegId} {v : Nat}

theorem asmRid_raw (h : v < 16) : asmRid (.raw v) = some (BitVec.ofNat 4 v) := if_pos h

theorem asmRid_raw_none (h : 16 ≤ v) : asmRid (.raw v) = none := if_neg (by omega)

theorem assemble_readPair (h : asmRid x = some rid) : assemble (.readPair x) = some (encode (.readPair rid)) := by
  simp only [assemble, asmInstr, h, Option.map_some]

theorem assemble_readCell (h : asmRid x = some rid) : assemble (.readCell x) = some (encode (.readCell rid)) := by
  simp only [assemble, asmInstr, h, Option.map_some]

theorem assemble_writePair (h : asmRid x = some rid) (fits : v < 2 ^ 16) :
    assemble (.writePair x v) = some (encode (.writePair rid (BitVec.ofNat 16 v))) := by
  simp only [assemble, asmInstr, h, if_pos fits, Option.map_some]

theorem assemble_writeCell (h : asmRid x = some rid) (fits : v < 2 ^ 8) :
    assemble (.writeCell x v) = some (encode (.writeCell rid (BitVec.ofNat 8 v))) := by
  simp only [assemble, asmInstr, h, if_pos fits, Option.map_some]

theorem assemble_readPair_none (h : asmRid x = none) : assemble (.readPair x) = none := by
  simp only [assemble, asmInstr, h, Option.map_none]

theorem assemble_readCell_none (h : asmRid x = none) : assemble (.readCell x) = none := by
  simp only [assemble, asmInstr, h, Option.map_none]

theorem assemble_writePair_none (wide : 2 ^ 16 ≤ v) : assemble (.writePair x v) = none := by
  simp only [assemble, asmInstr, if_neg (Nat.not_lt.mpr wide), Option.map_none]

theorem assemble_writeCell_none (wide : 2 ^ 8 ≤ v) : assemble (.writeCell x v) = none := by
  simp only [assemble, asmInstr, if_neg (Nat.not_lt.mpr wide), Option.map_none]

end

theorem setWidth_ofNat_byte {v : Nat} (fits : v < 2 ^ 8) : (BitVec.ofNat 8 v).setWidth 16 = BitVec.ofNat 16 v := by
  apply BitVec.eq_of_toNat_eq
  simp only [BitVec.toNat_setWidth, BitVec.toNat_ofNat]
  omega

/-- Settles O52: a line whose numerals fit assembles to the encoding of its instruction, which decodes to it. -/
theorem notationStandsForItsOperation : Obligations.NotationStandsForItsOperation := by
  refine ⟨fun n k fits => ⟨rfl, asmRid_raw fits⟩, fun x rid h => ⟨?_, ?_, fun v fits => ?_, fun v fits => ?_⟩, ?_,
    fun z n h c => ?_, fun x v => ⟨assemble_writePair_none, assemble_writeCell_none, fun wide => ?_⟩⟩
  · exact ⟨_, assemble_readPair h, rfl, decode_encode rfl⟩
  · exact ⟨_, assemble_readCell h, rfl, decode_encode rfl⟩
  · exact ⟨_, assemble_writePair h fits, rfl, rfl, decode_encode rfl⟩
  · exact ⟨_, assemble_writeCell h fits, rfl, setWidth_ofNat_byte fits, decode_encode rfl⟩
  · exact ⟨_, rfl, rfl, decode_encode rfl⟩
  · exact ⟨_, rfl, rfl, rfl, decode_encode rfl⟩
  · exact ⟨assemble_readPair_none (asmRid_raw_none wide), assemble_readCell_none (asmRid_raw_none wide)⟩

/-! ### The test vectors' words and the register identifiers (R50) -/

/-- Settles O5, by decoding the ten words. -/
theorem vectorWordsDecode : Obligations.VectorWordsDecode := by
  unfold Obligations.VectorWordsDecode; decide

theorem regNameOf_rid (n : RegName) : regNameOf n.rid = some n := by
  rcases n with r | p
  · cases r <;> rfl
  · cases p <;> rfl

theorem regNameOf_eq_some_iff (rid : RegId) (n : RegName) : regNameOf rid = some n ↔ rid = n.rid := by
  have named : ∀ q : RegId, ∀ m ∈ regNameOf q, q = m.rid := by decide
  exact ⟨named rid n, fun h => h ▸ regNameOf_rid n⟩

theorem cellOf_eq_some_iff (rid : RegId) (r : CellName) : cellOf rid = some r ↔ rid = r.rid :=
  ⟨cellOf_eq_some, fun h => h ▸ cellOf_rid r⟩

theorem pairOf_eq_some_iff (rid : RegId) (x : CellName × CellName) :
    pairOf rid = some x ↔ ∃ p : PairName, rid = p.rid ∧ x = (highCell p, lowCell p) := by
  refine ⟨pairOf_eq_some, ?_⟩
  rintro ⟨p, rfl, rfl⟩
  exact pairOf_rid p

/-- Settles O6: both selectors and the name decoder give exactly the names with the rid as their code. -/
theorem registerIdentifierCodes : Obligations.RegisterIdentifierCodes := by
  refine ⟨by decide, regNameOf_eq_some_iff, fun rid r => ?_, fun rid x => ?_⟩
  · rw [cellOf_eq_some_iff, regNameOf_eq_some_iff]; rfl
  · simp only [pairOf_eq_some_iff, regNameOf_eq_some_iff]; rfl

end Sys2Proof.Machine

/-! ## Pair access: the whole pair written and read (R61 to R66)

WritePair stores a word in a pair's two cells. What every cell and every pair view is after that is said once, and the
statements about pairs follow from it. -/

namespace Sys2Proof.Machine

/-! ### A word stored in a pair (R64) -/

/-- The cells after WritePair of `v` (R64). -/
def Cells.setPair (c : Cells) (p : PairName) (v : Word) : Cells :=
  (c.set (highCell p) (splitHi v)).set (lowCell p) (splitLo v)

theorem exec_writePair_setPair (p : PairName) (v : Word) (s : State) :
    exec (.writePair p.rid v) s = .next ((s.withCells (s.cells.setPair p v)).respond .ack) := exec_writePair p v s

/-- The value's high byte is in the high cell, its low byte in the low cell, and the other cells are as before (R64). -/
theorem Cells.get_setPair (c : Cells) (p : PairName) (v : Word) (r : CellName) :
    (c.setPair p v).get r =
      if r = highCell p then splitHi v else if r = lowCell p then splitLo v else c.get r := by
  rw [setPair]
  split_ifs with high low
  · rw [high, get_set_other _ _ _ _ (highCell_ne_lowCell p), get_set_same]
  · rw [low, get_set_same]
  · rw [get_set_other _ _ _ _ low, get_set_other _ _ _ _ high]

theorem Cells.get_setPair_high (c : Cells) (p : PairName) (v : Word) :
    (c.setPair p v).get (highCell p) = v.extractLsb' 8 8 := by
  rw [get_setPair, if_pos rfl, splitHi_eq_extract]

theorem Cells.get_setPair_low (c : Cells) (p : PairName) (v : Word) :
    (c.setPair p v).get (lowCell p) = v.extractLsb' 0 8 := by
  rw [get_setPair, if_neg (highCell_ne_lowCell p).symm, if_pos rfl, splitLo_eq_extract]

theorem Cells.get_setPair_other (c : Cells) {p : PairName} (v : Word) {r : CellName} (not_high : r ≠ highCell p)
    (not_low : r ≠ lowCell p) : (c.setPair p v).get r = c.get r := by
  rw [get_setPair, if_neg not_high, if_neg not_low]

/-- Pairs share no cell, so the view of another pair is as before (R66). -/
theorem Cells.pairView_setPair_other (c : Cells) {p q : PairName} (v : Word) (other : q ≠ p) :
    (c.setPair p v).pairView q = c.pairView q := by
  have untouched (r : CellName) (mem : r = highCell q ∨ r = lowCell q) : (c.setPair p v).get r = c.get r := by
    have outside : ¬ (r = highCell p ∨ r = lowCell p) := fun mem_p =>
      other (((cell_of_pair_iff r q).mp mem).trans ((cell_of_pair_iff r p).mp mem_p).symm)
    obtain ⟨not_high, not_low⟩ := not_or.mp outside
    exact get_setPair_other c v not_high not_low
  rw [pairView, untouched _ (.inl rfl), untouched _ (.inr rfl), pairView]

/-- Storing a pair's own view changes nothing (R66). -/
theorem Cells.setPair_pairView (c : Cells) (p : PairName) : c.setPair p (c.pairView p) = c := by
  rw [setPair, splitHi_pairView, set_get, splitLo_pairView, set_get]

/-- The second of two stores to a pair leaves nothing of the first (R66). -/
theorem Cells.setPair_setPair (c : Cells) (p : PairName) (v w : Word) :
    (c.setPair p v).setPair p w = c.setPair p w := by
  apply eq_of_get
  intro r
  rw [get_setPair, get_setPair, get_setPair]
  split_ifs <;> rfl

/-! ### Completions (R63, R64, R73) -/

theorem completesWith_writePair {p : PairName} {v : Word} {s : State} {c : Cells} (after : s.cells.setPair p v = c) :
    CompletesWith (.writePair p.rid v) s .ack c :=
  after ▸ completes_of_effect (effect_writePair p v s.cells) rfl

theorem completesWith_readCell_of_get {r : CellName} {s : State} {v : Byte} (holds : s.cells.get r = v) :
    CompletesWith (.readCell r.rid) s (.byte v) s.cells :=
  holds ▸ completesWith_readCell r s

/-- The word `0 000 rid` of a pair reads it, first-named cell high (R63). -/
theorem readPair_word (p : PairName) (s : State) (wdata : Word) (fin : FlagBits) :
    decode ⟨commandWord 0b000 p.rid, wdata, fin⟩ = .readPair p.rid ∧
      CompletesWith (.readPair p.rid) s (.word (s.cells.get (highCell p) ++ s.cells.get (lowCell p))) s.cells :=
  ⟨decode_commandWord_readPair p.rid wdata fin, completesWith_readPair (Cells.pairView_eq_append s.cells p)⟩

/-- The word `0 001 rid` of a pair writes wdata's two bytes to it (R64). -/
theorem writePair_word (p : PairName) (s : State) (v : Word) (fin : FlagBits) :
    decode ⟨commandWord 0b001 p.rid, v, fin⟩ = .writePair p.rid v ∧
      CompletesWith (.writePair p.rid v) s .ack
        ((s.cells.set (highCell p) (v.extractLsb' 8 8)).set (lowCell p) (v.extractLsb' 0 8)) := by
  refine ⟨decode_commandWord_writePair p.rid v fin, completesWith_writePair ?_⟩
  rw [Cells.setPair, splitHi_eq_extract, splitLo_eq_extract]

/-- A rid other than the four codes of R50 names no pair (R61). -/
theorem not_accepted_of_ne_pair_rids {rid : RegId} (not_af : rid ≠ 0x8) (not_bc : rid ≠ 0x9) (not_de : rid ≠ 0xA)
    (not_hl : rid ≠ 0xB) : ¬ (8 ≤ rid.toNat ∧ rid.toNat ≤ 11) := by
  intro accepted
  obtain ⟨p, rfl⟩ := pair_of_accepted accepted
  cases p with
  | af => exact not_af rfl
  | bc => exact not_bc rfl
  | de => exact not_de rfl
  | hl => exact not_hl rfl

/-! ### The statements about pairs -/

/-- Settles O36: composition is concatenation, and the splits are its two parts. -/
theorem composeAndSplitAreInverse : Obligations.ComposeAndSplitAreInverse := by
  intro hi lo v
  exact ⟨compose_eq_append hi lo, splitHi_eq_extract v, splitLo_eq_extract v, compose_splitHi_splitLo v,
    splitHi_compose hi lo, splitLo_compose hi lo⟩

/-- Settles O8: one word of each pair, and no pair for another rid. -/
theorem readPairReturnsThePair : Obligations.ReadPairReturnsThePair := by
  intro s wdata fin
  refine ⟨readPair_word .af s wdata fin, readPair_word .bc s wdata fin, readPair_word .de s wdata fin,
    readPair_word .hl s wdata fin, fun rid not_af not_bc not_de not_hl => ?_⟩
  exact raises_readPair s (not_accepted_of_ne_pair_rids not_af not_bc not_de not_hl)

/-- Settles O9: one word of each pair, and no pair for another rid. -/
theorem writePairWritesBothBytes : Obligations.WritePairWritesBothBytes := by
  intro s v fin
  refine ⟨writePair_word .af s v fin, writePair_word .bc s v fin, writePair_word .de s v fin,
    writePair_word .hl s v fin, fun rid not_af not_bc not_de not_hl => ?_⟩
  exact raises_writePair s v (not_accepted_of_ne_pair_rids not_af not_bc not_de not_hl)

/-- Settles O38: the stored value is the pair's view, and the store leaves the cells outside the pair. -/
theorem writePairThenReadPair : Obligations.WritePairThenReadPair := by
  intro s p hi lo
  refine ⟨_, exec_writePair_setPair p (compose hi lo) s, ?_, fun q not_high not_low => ?_⟩
  · exact completesWith_readPair (Cells.pairView_set_pair s.cells p (compose hi lo))
  · exact Cells.get_setPair_other s.cells (compose hi lo) not_high not_low

/-- Settles O39: each consequence is what one law of the stored pair, or of one written cell, says of the operations. -/
theorem pairWriteConsequences : Obligations.PairWriteConsequences := by
  intro s p v w
  have stored := exec_writePair_setPair p v s
  refine ⟨⟨_, stored, ?high, ?low⟩, ⟨s.cells.pairView p, completesWith_readPair rfl, ?own_value⟩, fun q other => ?other_pair,
    fun b => ⟨⟨_, exec_writeCell (highCell p) b s, ?high_cell⟩, ⟨_, exec_writeCell (lowCell p) b s, ?low_cell⟩⟩,
    ⟨_, s.cells.setPair p w, stored, ?second, completesWith_writePair rfl⟩⟩
  case high => exact completesWith_readCell_of_get (Cells.get_setPair_high s.cells p v)
  case low => exact completesWith_readCell_of_get (Cells.get_setPair_low s.cells p v)
  case own_value => exact completesWith_writePair (Cells.setPair_pairView s.cells p)
  case other_pair =>
    have same := Cells.pairView_setPair_other s.cells v other
    exact ⟨_, s.cells.pairView q, stored, completesWith_readPair rfl, completesWith_readPair same⟩
  case high_cell =>
    have view := Cells.pairView_set s.cells (highCell p) b p
    exact completesWith_readPair (view.trans (if_pos rfl))
  case low_cell =>
    have view := Cells.pairView_set s.cells (lowCell p) b p
    rw [if_neg (highCell_ne_lowCell p).symm, if_pos rfl] at view
    exact completesWith_readPair view
  case second => exact completesWith_writePair (Cells.setPair_setPair s.cells p v w)

end Sys2Proof.Machine

/-! ## Flag access: the record and the high nibble of F (R67 to R72)

A record and the four bits that carry it on a flag port determine each other (R52). So F is read and written through its
high nibble: the decoder reads F[7:4] as a flag port, the encoder puts a flag port over four zeros, and the laws of the
flag family follow from these two facts. -/

namespace Sys2Proof.Machine

/-! ### The high nibble of a byte -/

theorem highNibble_append_zeros (x : FlagBits) : (x ++ 0#4 : Byte).extractLsb' 4 4 = x :=
  BitVec.extractLsb'_append_eq_left

/-- Masking with 0xF0 keeps the high nibble over four zeros. -/
theorem and_F0_eq_append (f : Byte) : f &&& 0xF0 = f.extractLsb' 4 4 ++ 0#4 := by
  revert f; decide

theorem highNibble_toNat (f : Byte) : (f.extractLsb' 4 4).toNat = f.toNat / 16 := by
  have := f.isLt
  rw [BitVec.extractLsb'_toNat, Nat.shiftRight_eq_div_pow]
  omega

theorem append_zeros_toNat (x : FlagBits) : (x ++ 0#4 : Byte).toNat = 16 * x.toNat := by
  rw [BitVec.toNat_append, BitVec.toNat_ofNat, Nat.zero_mod, Nat.or_zero, Nat.shiftLeft_eq, Nat.mul_comm]

/-- Bytes that agree under the mask 0xF0 have the same high nibble. -/
theorem highNibble_eq_of_and_F0 {f g : Byte} (same : f &&& 0xF0 = g &&& 0xF0) : f.extractLsb' 4 4 = g.extractLsb' 4 4 := by
  rw [and_F0_eq_append, and_F0_eq_append] at same
  rw [← highNibble_append_zeros (f.extractLsb' 4 4), same, highNibble_append_zeros]

/-- The 256 bytes have each high nibble sixteen times. -/
theorem highNibble_words_count :
    ∀ x : FlagBits, (commandWords.filter (fun f => f.extractLsb' 4 4 == x)).length = 16 := by
  decide

/-! ### The decoder and the encoder through the high nibble -/

/-- The decoder reads F[7:4] as it reads a flag port (R52, R67). -/
theorem decodeF_eq_flagsOfFin (f : Byte) : decodeF f = flagsOfFin (f.extractLsb' 4 4) := by
  rw [decodeF_eq, flagsOfFin]
  simp only [BitVec.getElem_extractLsb']
  rfl

theorem finOfFlags_decodeF (f : Byte) : finOfFlags (decodeF f) = f.extractLsb' 4 4 := by
  rw [decodeF_eq_flagsOfFin, finOfFlags_flagsOfFin]

/-- The bytes that decode to a record are those whose high nibble carries it (R68). -/
theorem decodeF_eq_iff_highNibble (f : Byte) (fl : Flags) : decodeF f = fl ↔ f.extractLsb' 4 4 = finOfFlags fl := by
  constructor
  · rintro rfl; exact (finOfFlags_decodeF f).symm
  · intro nibble; rw [decodeF_eq_flagsOfFin, nibble, flagsOfFin_finOfFlags]

theorem decodeF_eq_iff_range (f : Byte) (fl : Flags) :
    decodeF f = fl ↔ 16 * (finOfFlags fl).toNat ≤ f.toNat ∧ f.toNat ≤ 16 * (finOfFlags fl).toNat + 15 := by
  rw [decodeF_eq_iff_highNibble, ← BitVec.toNat_inj, highNibble_toNat]
  omega

theorem decodeF_eq_of_and_F0 {f g : Byte} (same : f &&& 0xF0 = g &&& 0xF0) : decodeF f = decodeF g := by
  rw [decodeF_eq_flagsOfFin, highNibble_eq_of_and_F0 same, decodeF_eq_flagsOfFin]

/-- Encode then decode gives the record (R71). -/
@[simp] theorem decodeF_encodeF (fl : Flags) : decodeF (encodeF fl) = fl := by
  rw [decodeF_eq_iff_highNibble, encodeF_eq, highNibble_append_zeros]

/-- Decode then encode clears F[3:0] and keeps F[7:4] (R70). -/
@[simp] theorem encodeF_decodeF (f : Byte) : encodeF (decodeF f) = f &&& 0xF0 := by
  rw [encodeF_eq, finOfFlags_decodeF, and_F0_eq_append]

theorem encodeF_toNat (fl : Flags) : (encodeF fl).toNat = 16 * (finOfFlags fl).toNat := by
  rw [encodeF_eq, append_zeros_toNat]

theorem decodeF_words_count (fl : Flags) : (commandWords.filter (fun f => decodeF f == fl)).length = 16 := by
  have same_test (f : Byte) : (decodeF f == fl) = (f.extractLsb' 4 4 == finOfFlags fl) :=
    beq_eq_beq.mpr (decodeF_eq_iff_highNibble f fl)
  simp only [same_test]
  exact highNibble_words_count (finOfFlags fl)

/-! ### Completions (R67, R69) -/

theorem exec_getFlags (s : State) : exec .getFlags s = .next (s.respond (.flagsR (decodeF s.cells.f))) :=
  exec_of_effect (i := .getFlags) rfl

theorem completesWith_getFlags {s : State} {fl : Flags} (view : decodeF s.cells.f = fl) :
    CompletesWith .getFlags s (.flagsR fl) s.cells :=
  view ▸ completes_of_effect rfl rfl

theorem completesWith_setFlags {s : State} {fl : Flags} {v : Byte} (encoded : encodeF fl = v) :
    CompletesWith (.setFlags fl) s .ack { s.cells with f := v } :=
  encoded ▸ completes_of_effect (effect_setFlags fl s.cells) rfl

/-- The word `0 011 rid` with a record on fin writes the record over four zeros to F (R69). -/
theorem setFlags_word (fl : Flags) (s : State) (rid : RegId) (wdata : Word) :
    decode ⟨commandWord 0b011 rid, wdata, finOfFlags fl⟩ = .setFlags fl ∧
      CompletesWith (.setFlags fl) s .ack { s.cells with f := finOfFlags fl ++ 0#4 } := by
  refine ⟨?_, completesWith_setFlags (encodeF_eq fl)⟩
  rw [decode_commandWord_setFlags, flagsOfFin_finOfFlags]

/-! ### The statements about flags -/

/-- Settles O10: the words `0 010 rid` are GetFlags, and its record is bits 7 to 4 of F. -/
theorem getFlagsReturnsTheFlagBits : Obligations.GetFlagsReturnsTheFlagBits := by
  intro s rid wdata fin
  exact ⟨decode_commandWord_getFlags rid wdata fin, completesWith_getFlags (decodeF_eq s.cells.f)⟩

/-- Settles O11: the four flags are a record, which fin carries and SetFlags puts over four zeros. -/
theorem setFlagsOverwritesF : Obligations.SetFlagsOverwritesF :=
  fun s rid wdata z n h c => setFlags_word ⟨z, n, h, c⟩ s rid wdata

/-- Settles O41: the mask 0xF0 keeps the high nibble, which is all the decoder reads. -/
theorem flagsDependOnTheHighNibble : Obligations.FlagsDependOnTheHighNibble := by
  refine ⟨fun f => ⟨?masked, ?bits⟩, decodeF_words_count, fun s f same => ?same_nibble⟩
  case masked => rw [← encodeF_decodeF, decodeF_encodeF]
  case bits => rw [decodeF_eq]; exact ⟨rfl, rfl, rfl, rfl⟩
  case same_nibble => exact completesWith_getFlags (decodeF_eq_of_and_F0 same)

/-- Settles O42: SetFlags writes the encoding of what GetFlags decoded. -/
theorem getFlagsThenSetFlags : Obligations.GetFlagsThenSetFlags := by
  intro s
  exact ⟨decodeF s.cells.f, completesWith_getFlags rfl, _, exec_getFlags s,
    completesWith_setFlags (encodeF_decodeF s.cells.f)⟩

/-- Settles O43: GetFlags decodes what SetFlags encoded, and the record is the high digit of F in base 16. -/
theorem setFlagsThenGetFlags : Obligations.SetFlagsThenGetFlags := by
  intro s fl
  refine ⟨⟨_, exec_setFlags fl s, encodeF_toNat fl, completesWith_getFlags (decodeF_encodeF fl)⟩,
    fun f => decodeF_eq_iff_range f fl, fun fin => ?_, finOfFlags_decodeF⟩
  rw [encodeF_eq, finOfFlags_flagsOfFin]

/-- Settles O44: F after the sequence encodes the changed record, so it decodes to it. -/
theorem flagUpdateSequence : Obligations.FlagUpdateSequence := by
  intro s change
  exact ⟨s.cells.flagView, _, _, exec_getFlags s, State.responses_respond s _, exec_setFlags _ _, decodeF_encodeF _,
    encodeF_low_nibble _, rfl⟩

end Sys2Proof.Machine

/-! ## Cell access: one cell written and read (R73 to R76)

What a cell write does to every cell and every pair view gives the laws of the family. A list of writes run from any state
leaves the cells that the writes give one after the other; eight cell writes, or four pair writes, name every cell. -/

namespace Sys2Proof.Machine

/-! ### Completions (R73, R74) -/

theorem completesWith_writeCell {r : CellName} {v : Byte} {s : State} {c : Cells} (after : s.cells.set r v = c) :
    CompletesWith (.writeCell r.rid v) s .ack c :=
  after ▸ completes_of_effect (effect_writeCell r v s.cells) rfl

/-- WriteCell's byte is the low byte of wdata, whatever the high byte is (R49). -/
theorem cellOperand_append (high v : Byte) : cellOperand (high ++ v) = v :=
  BitVec.extractLsb'_append_eq_right

/-- The word `0 100 rid` of a cell reads it (R73). -/
theorem readCell_word (r : CellName) (s : State) (wdata : Word) (fin : FlagBits) :
    decode ⟨commandWord 0b100 r.rid, wdata, fin⟩ = .readCell r.rid ∧
      CompletesWith (.readCell r.rid) s (.byte (s.cells.get r)) s.cells :=
  ⟨decode_commandWord_readCell r.rid wdata fin, completesWith_readCell r s⟩

theorem decode_writeCell_word (r : CellName) (high v : Byte) (fin : FlagBits) :
    decode ⟨commandWord 0b101 r.rid, high ++ v, fin⟩ = .writeCell r.rid v := by
  rw [decode_commandWord_writeCell, cellOperand_append]

/-- The word `0 101 rid` of a cell writes wdata's low byte to it (R74). -/
theorem writeCell_word (r : CellName) (s : State) (high v : Byte) (fin : FlagBits) :
    decode ⟨commandWord 0b101 r.rid, high ++ v, fin⟩ = .writeCell r.rid v ∧
      CompletesWith (.writeCell r.rid v) s .ack (s.cells.set r v) :=
  ⟨decode_writeCell_word r high v fin, completesWith_writeCell rfl⟩

/-! ### Pair views after a cell write (R75) -/

theorem Cells.pairView_set_high (c : Cells) (p : PairName) (v : Byte) :
    (c.set (highCell p) v).pairView p = v ++ c.get (lowCell p) := by
  rw [pairView_set, if_pos rfl]

theorem Cells.pairView_set_low (c : Cells) (p : PairName) (v : Byte) :
    (c.set (lowCell p) v).pairView p = c.get (highCell p) ++ v := by
  rw [pairView_set, if_neg (highCell_ne_lowCell p).symm, if_pos rfl]

theorem Cells.pairView_set_other (c : Cells) {r : CellName} {p : PairName} (v : Byte) (not_high : r ≠ highCell p)
    (not_low : r ≠ lowCell p) : (c.set r v).pairView p = c.pairView p := by
  rw [pairView_set, if_neg not_high, if_neg not_low]

/-! ### Pair views after a pair write (R65) -/

theorem Cells.pairView_setPair_same (c : Cells) (p : PairName) (v : Word) : (c.setPair p v).pairView p = v :=
  pairView_set_pair c p v

/-! ### Runs of writes (R76) -/

/-- A step whose operation writes the cells completes, and leaves the inputs after it. -/
theorem step_op_of_effect {s : State} {q : Request} {rest : List Input} {r : Response} {c : Cells}
    (he : effect (decode q) s.cells = some (r, c)) :
    step { s with inputs := .op q :: rest } = .next ((({ s with inputs := rest } : State).withCells c).respond r) :=
  (step_op rfl).trans (exec_of_effect he)

/-- Operations that each write the cells by `write` leave, run one after the other, what the writes give in order. -/
theorem runSteps_writes {α : Type} {op : α → Request} {write : Cells → α → Cells}
    (writes : ∀ x c, effect (decode (op x)) c = some (.ack, write c x)) (xs : List α) (s : State) :
    ∃ t, runSteps (xs.map op).length { s with inputs := (xs.map op).map .op } = .next t ∧
      t.cells = xs.foldl write s.cells := by
  induction xs generalizing s with
  | nil => exact ⟨_, rfl, rfl⟩
  | cons x xs ih =>
    obtain ⟨t, run, cells⟩ := ih ((s.withCells (write s.cells x)).respond .ack)
    exact ⟨t, (runSteps_succ_next (step_op_of_effect (writes x s.cells)) _).trans run, cells⟩

/-- The eight cells (R15). -/
def allCells : List CellName := [.a, .b, .c, .d, .e, .f, .h, .l]

/-- The four pairs (R18). -/
def allPairs : List PairName := [.af, .bc, .de, .hl]

/-- The operation that writes to a cell what `target` holds there. -/
def writeCellTo (target : Cells) (r : CellName) : Request := encode (.writeCell r.rid (target.get r))

/-- The operation that writes to a pair the view it has in `target`. -/
def writePairTo (target : Cells) (p : PairName) : Request := encode (.writePair p.rid (target.pairView p))

theorem decode_writeCellTo (target : Cells) (r : CellName) :
    decode (writeCellTo target r) = .writeCell r.rid (target.get r) := decode_encode rfl

theorem decode_writePairTo (target : Cells) (p : PairName) :
    decode (writePairTo target p) = .writePair p.rid (target.pairView p) := decode_encode rfl

/-- What each write makes hold of its own place, and no write undoes, holds after the writes of every place written. -/
theorem foldl_holds {α : Type} {write : Cells → α → Cells} {holds : Cells → α → Prop}
    (own : ∀ c x, holds (write c x) x) (kept : ∀ c x y, holds c y → holds (write c x) y) (xs : List α) (c : Cells) (y : α)
    (h : y ∈ xs ∨ holds c y) : holds (xs.foldl write c) y := by
  induction xs generalizing c with
  | nil => exact h.resolve_left List.not_mem_nil
  | cons x xs ih =>
    rw [List.mem_cons] at h
    rcases h with (rfl | later) | before
    · exact ih _ (.inr (own c y))
    · exact ih _ (.inl later)
    · exact ih _ (.inr (kept c x y before))

/-- The cells after every cell is written from `target`. -/
theorem foldl_set_allCells (target c : Cells) : allCells.foldl (fun d r => d.set r (target.get r)) c = target := by
  apply Cells.eq_of_get
  intro q
  have named : q ∈ allCells := by cases q <;> decide
  refine foldl_holds (holds := fun d r => d.get r = target.get r) (fun d r => Cells.get_set_same d r _) ?kept allCells c q
    (.inl named)
  intro d r q before
  by_cases same : q = r
  · rw [same, Cells.get_set_same]
  · rw [Cells.get_set_other _ _ _ _ same, before]

/-- The cells after every pair is given the view it has in `target`: the views determine the cells (R28). -/
theorem foldl_setPair_allPairs (target c : Cells) :
    allPairs.foldl (fun d p => d.setPair p (target.pairView p)) c = target := by
  apply Cells.eq_of_pairView
  intro q
  have named : q ∈ allPairs := by cases q <;> decide
  refine foldl_holds (holds := fun d p => d.pairView p = target.pairView p) (fun d p => Cells.pairView_setPair_same d p _)
    ?kept allPairs c q (.inl named)
  intro d p q before
  by_cases same : q = p
  · rw [same, Cells.pairView_setPair_same]
  · rw [Cells.pairView_setPair_other _ _ same, before]

/-! ### The statements about cells -/

/-- Settles O12: one word of each cell, and no cell for another rid. -/
theorem readCellReturnsTheCell : Obligations.ReadCellReturnsTheCell := by
  intro s wdata fin
  have word (r : CellName) := readCell_word r s wdata fin
  exact ⟨word .a, word .b, word .c, word .d, word .e, word .f, word .h, word .l,
    fun rid high => raises_readCell s (Nat.not_le.mpr high)⟩

/-- Settles O13: one word of each cell, and no cell for another rid. -/
theorem writeCellOverwritesOneCell : Obligations.WriteCellOverwritesOneCell := by
  intro s v high fin
  have word (r : CellName) := writeCell_word r s high v fin
  exact ⟨word .a, word .b, word .c, word .d, word .e, word .f, word .h, word .l,
    fun rid big => raises_writeCell s v (Nat.not_le.mpr big)⟩

/-- Settles O45: each law is what one law of a cell write says of the operations. -/
theorem cellLaws : Obligations.CellLaws := by
  intro s r v
  refine ⟨⟨_, exec_writeCell r v s, ?same_cell, fun q other => ?other_cell, fun p not_high not_low => ?other_pair,
    fun p high => ?high_byte, fun p low => ?low_byte⟩, s.cells.get r, completesWith_readCell r s, ?write_back⟩
  case same_cell => exact completesWith_readCell_of_get (Cells.get_set_same s.cells r v)
  case other_cell =>
    have same := Cells.get_set_other s.cells r q v other
    exact ⟨s.cells.get q, completesWith_readCell q s, completesWith_readCell_of_get same⟩
  case other_pair => exact Cells.pairView_set_other s.cells v not_high not_low
  case high_byte => subst high; exact Cells.pairView_set_high s.cells p v
  case low_byte => subst low; exact Cells.pairView_set_low s.cells p v
  case write_back => exact completesWith_writeCell (Cells.set_get s.cells r)

/-- Settles O46: write every cell, or every pair, from the target. -/
theorem everyStateIsReachable : Obligations.EveryStateIsReachable := by
  intro s target
  refine ⟨⟨allCells.map (writeCellTo target), le_rfl, List.forall_mem_map.mpr fun r _ => ?cell_write, ?cells⟩,
    ⟨allPairs.map (writePairTo target), le_rfl, List.forall_mem_map.mpr fun p _ => ?pair_write, ?pairs⟩⟩
  case cell_write => exact ⟨r, target.get r, decode_writeCellTo target r⟩
  case pair_write => exact ⟨p, target.pairView p, decode_writePairTo target p⟩
  case cells =>
    have writes (r : CellName) (c : Cells) : effect (decode (writeCellTo target r)) c = some (.ack, c.set r (target.get r)) := by
      rw [decode_writeCellTo, effect_writeCell]
    obtain ⟨t, run, cells⟩ := runSteps_writes writes allCells s
    exact ⟨t, run, cells.trans (foldl_set_allCells target s.cells)⟩
  case pairs =>
    have writes (p : PairName) (c : Cells) :
        effect (decode (writePairTo target p)) c = some (.ack, c.setPair p (target.pairView p)) := by
      rw [decode_writePairTo, effect_writePair, Cells.setPair]
    obtain ⟨t, run, cells⟩ := runSteps_writes writes allPairs s
    exact ⟨t, run, cells.trans (foldl_setPair_allPairs target s.cells)⟩

end Sys2Proof.Machine

/-! ## The error: what it does, which words raise it, and its record (R77 to R86)

An Err leaves the cells, so by R27 the block goes on as before it. Which of the three outcomes a word has is read off its op
and rid fields. Each response adds to the fault record what `errorsFrom` reads from the completed steps, so the records agree
after every step of a run. -/

namespace Sys2Proof.Machine

/-! ### The fault record and the completed steps (R82) -/

theorem errorsFrom_cons (n : Nat) (c : Completion) (cs : List Completion) :
    errorsFrom n (c :: cs) = faultEntries n c.response ++ errorsFrom (n + 1) cs := by
  obtain ⟨r, o⟩ := c
  cases r <;> rfl

/-- One more completed step adds what its response adds, under the number after theirs. -/
theorem errorsFrom_concat (n : Nat) (cs : List Completion) (c : Completion) :
    errorsFrom n (cs ++ [c]) = errorsFrom n cs ++ faultEntries (n + cs.length) c.response := by
  induction cs generalizing n with
  | nil => exact (errorsFrom_cons n c []).trans (List.append_nil _)
  | cons d ds ih =>
    rw [List.cons_append, errorsFrom_cons, errorsFrom_cons, ih, List.append_assoc, List.length_cons, Nat.add_right_comm,
      Nat.add_assoc n]

theorem faultEntries_eq_nil_iff_no_err (n : Nat) (r : Response) : faultEntries n r = [] ↔ ∀ e, r ≠ .err e := by
  cases r <;> simp [faultEntries]

theorem errorsFrom_eq_nil_iff (n : Nat) (cs : List Completion) :
    errorsFrom n cs = [] ↔ ∀ c ∈ cs, ∀ e, c.response ≠ .err e := by
  induction cs generalizing n with
  | nil => exact ⟨fun _ _ h => absurd h List.not_mem_nil, fun _ => rfl⟩
  | cons c cs ih =>
    rw [errorsFrom_cons, List.append_eq_nil_iff, faultEntries_eq_nil_iff_no_err, ih, List.forall_mem_cons]

/-! ### Coherent records -/

/-- Giving a response keeps the records in agreement: it adds one step, that step's Err and its ports. -/
theorem State.Coherent.respond {s : State} (h : s.Coherent) (r : Response) : (s.respond r).Coherent where
  position := by rw [respond_position, respond_completed, List.length_append, h.position, List.length_singleton]
  faults := by
    rw [respond_faultRecord, respond_completed, errorsFrom_concat, h.faults, h.position, Nat.add_comm 1]
  ports := by
    rw [respond_completed, List.forall_mem_append, List.forall_mem_singleton]
    exact ⟨h.ports, portsOf_carries r _⟩

/-- The records do not speak of the inputs or the cells. -/
theorem State.Coherent.withInputs_withCells {s : State} (h : s.Coherent) (rest : List Input) (c : Cells) :
    (({ s with inputs := rest } : State).withCells c).Coherent :=
  ⟨h.position, h.faults, h.ports⟩

theorem step_keeps_coherent {s t : State} (h : s.Coherent) (ht : step s = .next t) : t.Coherent := by
  rcases step_next ht with ⟨q, rest, r, c, -, -, rfl⟩ | ⟨rest, -, -, rfl⟩
  · exact (h.withInputs_withCells rest c).respond r
  · exact h.withInputs_withCells rest Cells.reset

/-- Settles O29, by the inversion of step: one response to the state with other inputs and cells, or the reset event. -/
theorem stepKeepsRecordsCoherent : Obligations.StepKeepsRecordsCoherent :=
  fun _ _ => step_keeps_coherent

/-! ### Runs -/

/-- What every step keeps holds after a run if it holds before it. -/
theorem runSteps_keeps {P : State → Prop} (kept : ∀ {s t}, P s → step s = .next t → P t) {k : Nat} {s t : State}
    (before : P s) (run : runSteps k s = .next t) : P t := by
  induction k generalizing s with
  | zero => cases run; exact before
  | succ k ih =>
    cases h : step s with
    | next u => exact ih (kept before h) ((runSteps_succ_next h k).symm.trans run)
    | fault x => rw [runSteps, h] at run; cases run
    | refused x => rw [runSteps, h] at run; cases run

theorem launch_coherent (start : Cells) (ops : List Request) : (launch start ops).Coherent :=
  ⟨rfl, rfl, fun _ h => absurd h List.not_mem_nil⟩

/-- Settles O51: after a run the fault record is the Err responses of its completed steps. -/
theorem errorFreeRunHasNoErr : Obligations.ErrorFreeRunHasNoErr := by
  intro start ops t run
  have coherent : t.Coherent := runSteps_keeps step_keeps_coherent (launch_coherent start ops) run
  rw [State.errorFree, coherent.faults, errorsFrom_eq_nil_iff, State.responses, List.forall_mem_map]

/-- Settles O31: a response adds to the ends of both lists, a reset to neither; and the error does not depend on the inputs. -/
theorem faultRecordIsNeverCleared : Obligations.FaultRecordIsNeverCleared := by
  refine ⟨fun s t h => ?_, fun s q rest rid inputs raises => ?_⟩
  · rcases step_next h with ⟨q, rest, r, c, -, -, rfl⟩ | ⟨rest, -, -, rfl⟩
    · exact ⟨List.prefix_append _ _, List.prefix_append _ _⟩
    · exact ⟨List.prefix_rfl, List.prefix_rfl⟩
  · obtain ⟨-, same_error, -⟩ := onlyTheCellsMatter (decode q) s { s with inputs := rest } rfl
    obtain ⟨t, ht, performed⟩ := (same_error rid).mp raises
    exact ⟨t, (step_op inputs).trans ht, performed.faultRecord⟩

/-! ### What the error does (R80, R81) -/

theorem CellWrite.effect_eq {i : Instr} {c c' : Cells} (write : CellWrite i c c') : effect i c = some (.ack, c') := by
  cases write with
  | pair p v => exact effect_writePair p v c
  | flags fl => exact effect_setFlags fl c
  | cell r v => exact effect_writeCell r v c

/-- An Err leaves the cells: every write responds Ack. -/
theorem effect_err_keeps_cells {i : Instr} {c c' : Cells} {e : BlockError} (h : effect i c = some (.err e, c')) :
    c' = c := by
  refine (effect_keeps_or_writes h).resolve_right fun write => ?_
  cases h.symm.trans write.effect_eq

/-- Settles O17: the one response of the step is the Err, and the effect of an Err leaves the cells. -/
theorem errorChangesNoCell : Obligations.ErrorChangesNoCell := by
  intro i s t e ht responses
  obtain ⟨r, c, he, rfl⟩ := exec_next ht
  rw [State.responses_respond] at responses
  cases List.append_cancel_left responses
  exact ⟨effect_err_keeps_cells he, rfl, ⟨_, rfl, rfl⟩, rfl⟩

/-- Settles O18: the error leaves the cells, and only the cells matter. -/
theorem blockContinuesAfterError : Obligations.BlockContinuesAfterError := by
  rintro i j s rid ⟨t, ht, performed⟩
  obtain ⟨completes, raises, refuses⟩ := onlyTheCellsMatter j s t performed.cells.symm
  exact ⟨t, ht, fun r c => (completes r c).mp, fun rid' => (raises rid').mp, fun x => (refuses x).mp⟩

/-! ### The outcome of a word by its fields (R78, R85) -/

/-- The rid is none that the operation of this op field accepts: a pair operation wants 8 to 11, a cell operation 0 to 7, and
the flag operations look at no rid (R51). -/
def RidRejected (op : BitVec 3) (rid : RegId) : Prop :=
  (op.toNat < 2 ∧ ¬ (8 ≤ rid.toNat ∧ rid.toNat ≤ 11)) ∨ (4 ≤ op.toNat ∧ ¬ rid.toNat ≤ 7)

theorem six_le_op_iff (op : BitVec 3) : 6 ≤ op.toNat ↔ op = 0b110 ∨ op = 0b111 := by
  revert op; decide

section
variable {q : Request} (h7 : q.cmd[7] = false) (operation : (opField q.cmd).toNat < 6) (s : State)
include h7 operation

theorem raises_of_ridRejected (rejected : RidRejected (opField q.cmd) (ridField q.cmd)) :
    RaisesInvalid (decode q) s (ridField q.cmd) := by
  have pair_ops : ∀ op : BitVec 3, op.toNat < 2 → op = 0b000 ∨ op = 0b001 := by decide
  have cell_ops : ∀ op : BitVec 3, 4 ≤ op.toNat → op.toNat < 6 → op = 0b100 ∨ op = 0b101 := by decide
  rcases rejected with ⟨pair, no_pair⟩ | ⟨cell, no_cell⟩
  · rcases pair_ops _ pair with op | op
    · rw [decode_readPair h7 op]; exact raises_readPair s no_pair
    · rw [decode_writePair h7 op]; exact raises_writePair s _ no_pair
  · rcases cell_ops _ cell operation with op | op
    · rw [decode_readCell h7 op]; exact raises_readCell s no_cell
    · rw [decode_writeCell h7 op]; exact raises_writeCell s _ no_cell

theorem completes_of_not_ridRejected (accepted : ¬ RidRejected (opField q.cmd) (ridField q.cmd)) :
    ∃ r c, CompletesWith (decode q) s r c := by
  obtain ⟨not_pair, not_cell⟩ := not_or.mp accepted
  have pair (op : (opField q.cmd).toNat < 2) := not_not.mp (not_and.mp not_pair op)
  have cell (op : 4 ≤ (opField q.cmd).toNat) := not_not.mp (not_and.mp not_cell op)
  rcases opField_cases (opField q.cmd) with op | op | op | op | op | op | reserved
  · rw [decode_readPair h7 op]
    exact (completes_readPair s (pair (by rw [op]; decide))).elim fun _ h => ⟨_, _, h⟩
  · rw [decode_writePair h7 op]
    exact ⟨_, completes_writePair s _ (pair (by rw [op]; decide))⟩
  · rw [decode_getFlags h7 op]
    exact ⟨_, _, completesWith_getFlags rfl⟩
  · rw [decode_setFlags h7 op]
    exact ⟨_, _, completesWith_setFlags rfl⟩
  · rw [decode_readCell h7 op]
    exact (completes_readCell s (cell (by rw [op]; decide))).elim fun _ h => ⟨_, _, h⟩
  · rw [decode_writeCell h7 op]
    exact ⟨_, completes_writeCell s _ (cell (by rw [op]; decide))⟩
  · exact absurd ((six_le_op_iff _).mpr reserved) (Nat.not_le.mpr operation)

end

/-- Settles O19: the reserved word is refused, and the op and rid fields decide between the error and completion. -/
theorem outcomePriority : Obligations.OutcomePriority := by
  intro q s
  refine ⟨fun reserved => ?_, fun h7 operation => raises_of_ridRejected h7 operation s,
    fun h7 operation => completes_of_not_ridRejected h7 operation s⟩
  exact exec_of_reservedWord ((reservedWord_iff q.cmd).mpr (reserved.imp_right (six_le_op_iff _).mp)) s

theorem RaisesInvalid.not_refused {i : Instr} {s : State} {rid : RegId} (h : RaisesInvalid i s rid) (x : Refusal) :
    exec i s ≠ .refused x := by
  obtain ⟨t, ht, -⟩ := h
  rw [ht]
  nofun

theorem RaisesInvalid.rid_unique {i : Instr} {s : State} {rid rid' : RegId} (h : RaisesInvalid i s rid)
    (h' : RaisesInvalid i s rid') : rid = rid' := by
  cases ((raisesInvalid_iff_effect i s rid).mp h).symm.trans ((raisesInvalid_iff_effect i s rid').mp h')
  rfl

/-- A word raises the error exactly if it is not reserved and its operation rejects its rid, and with that rid. -/
theorem raisesInvalid_decode_iff (q : Request) (s : State) (rid : RegId) :
    RaisesInvalid (decode q) s rid ↔ rid = ridField q.cmd ∧
      q.cmd[7] = false ∧ (opField q.cmd).toNat < 6 ∧ RidRejected (opField q.cmd) (ridField q.cmd) := by
  constructor
  · intro raises
    obtain ⟨refused, -, -⟩ := outcomePriority q s
    obtain ⟨bit7, op⟩ := not_or.mp (mt refused (raises.not_refused _))
    have h7 : q.cmd[7] = false := Bool.eq_false_of_not_eq_true bit7
    have operation : (opField q.cmd).toNat < 6 := Nat.not_le.mp op
    have rejected : RidRejected (opField q.cmd) (ridField q.cmd) := by
      by_contra accepted
      obtain ⟨r, c, completes⟩ := completes_of_not_ridRejected h7 operation s accepted
      exact completes.not_raises rid raises
    exact ⟨raises.rid_unique (raises_of_ridRejected h7 operation s rejected), h7, operation, rejected⟩
  · rintro ⟨rfl, h7, operation, rejected⟩
    exact raises_of_ridRejected h7 operation s rejected

theorem toNat_of_bit7_clear {cmd : Byte} (h : cmd[7] = false) :
    cmd.toNat = 16 * (opField cmd).toNat + (ridField cmd).toNat :=
  (congrArg BitVec.toNat (eq_commandWord_of_bit7_clear h)).trans (commandWord_toNat _ _)

theorem toNat_of_bit7_set {cmd : Byte} (h : cmd[7] = true) : 0x80 ≤ cmd.toNat := by
  revert cmd; decide

/-- The words of R78's table, by their fields. -/
theorem rejected_fields_iff_listed_word (cmd : Byte) :
    (cmd[7] = false ∧ (opField cmd).toNat < 6 ∧ RidRejected (opField cmd) (ridField cmd)) ↔
      (cmd.toNat ≤ 0x07 ∨ (0x0C ≤ cmd.toNat ∧ cmd.toNat ≤ 0x0F) ∨ (0x10 ≤ cmd.toNat ∧ cmd.toNat ≤ 0x17) ∨
        (0x1C ≤ cmd.toNat ∧ cmd.toNat ≤ 0x1F) ∨ (0x48 ≤ cmd.toNat ∧ cmd.toNat ≤ 0x4F) ∨
        (0x58 ≤ cmd.toNat ∧ cmd.toNat ≤ 0x5F)) := by
  cases h7 : cmd[7] with
  | true =>
    have high := toNat_of_bit7_set h7
    exact ⟨fun fields => (nomatch fields.1), fun words => by exfalso; omega⟩
  | false =>
    have digits := toNat_of_bit7_clear h7
    have low_digit := (ridField cmd).isLt
    rw [eq_self, true_and, RidRejected]
    omega

/-- Settles O16: the fields that reject the rid are those of the listed words. -/
theorem invalidIdentifierWords : Obligations.InvalidIdentifierWords :=
  fun q s rid => (raisesInvalid_decode_iff q s rid).trans (and_congr_right' (rejected_fields_iff_listed_word q.cmd))

end Sys2Proof.Machine

/-! ## Reset, and the runs of lists of operations (R91 to R100)

The reset event acts only while nothing has been performed. A step that presents an operation completes it unless its word is
reserved, so a run of a list of operations goes on to the end of the list or to its first reserved word. -/

namespace Sys2Proof.Machine

/-! ### The reset values (R93) -/

@[simp] theorem Cells.get_reset (r : CellName) : Cells.reset.get r = 0x00 := by cases r <;> rfl

@[simp] theorem Cells.pairView_reset (p : PairName) : Cells.reset.pairView p = 0x0000 := by
  rw [pairView_eq_append, get_reset, get_reset]
  rfl

/-- Settles O27: every view is read from cells that hold 0x00. -/
theorem resetValues : Obligations.ResetValues :=
  ⟨Cells.get_reset, Cells.pairView_reset, rfl, rfl⟩

/-! ### The reset event (R91, I4) -/

theorem resetEvent_before_operations {s : State} (h : s.position = 0) :
    resetEvent s = .next (s.withCells Cells.reset) := if_pos h

theorem resetEvent_after_operations {s : State} (h : s.position ≠ 0) : resetEvent s = .refused .resetInRun := if_neg h

/-- Settles O28, by the step on a reset event. -/
theorem step_resetEvent : Obligations.ResetEvent := by
  intro s rest
  refine ⟨fun first => ?_, fun later => ?_⟩
  · exact (step_reset (rest := rest) rfl).trans (resetEvent_before_operations first)
  · exact (step_reset (rest := rest) rfl).trans (resetEvent_after_operations later)

/-! ### The start and the end of a run (R94, R100) -/

/-- Settles O30: the reset state is the start of the run of no operation from the reset cells. -/
theorem recordsCoherentAtStart : Obligations.RecordsCoherentAtStart :=
  ⟨launch_coherent Cells.reset [], launch_coherent⟩

/-- Settles O26, by the step with no input. -/
theorem runEndsWithNothingPresented : Obligations.RunEndsWithNothingPresented :=
  fun _ => step_nil rfl

/-! ### Runs of a list of operations (R100) -/

/-- A word that is not reserved has an effect: it raises the error or completes, as its fields say (R85). -/
theorem effect_of_not_reservedWord {q : Request} (operation : reservedWord q.cmd = false) (s : State) :
    ∃ r c, effect (decode q) s.cells = some (r, c) := by
  obtain ⟨bit7, op⟩ := not_or.mp (mt (reservedWord_iff q.cmd).mpr (Bool.eq_false_iff.mp operation))
  have h7 : q.cmd[7] = false := Bool.eq_false_iff.mpr bit7
  have below : (opField q.cmd).toNat < 6 := Nat.not_le.mp (mt (six_le_op_iff _).mp op)
  by_cases rejected : RidRejected (opField q.cmd) (ridField q.cmd)
  · exact ⟨_, _, (raisesInvalid_iff_effect _ _ _).mp (raises_of_ridRejected h7 below s rejected)⟩
  · obtain ⟨r, c, completes⟩ := completes_of_not_ridRejected h7 below s rejected
    obtain ⟨he, -⟩ := (completesWith_iff_effect _ _ _ _).mp completes
    exact ⟨r, c, he⟩

section
variable {s : State} {q : Request} {rest : List Input} (inputs : s.inputs = .op q :: rest)
include inputs

theorem step_of_not_reservedWord (operation : reservedWord q.cmd = false) :
    ∃ t, step s = .next t ∧ t.inputs = rest ∧ t.position = s.position + 1 := by
  obtain ⟨r, c, he⟩ := effect_of_not_reservedWord operation s
  exact ⟨_, (step_op inputs).trans (exec_of_effect he), rfl, rfl⟩

theorem step_of_reservedWord (reserved : reservedWord q.cmd = true) :
    step s = .refused (.reservedCommandWord q.cmd) :=
  (step_op inputs).trans (exec_of_reservedWord reserved _)

end

theorem runSteps_succ_refused {s : State} {x : Refusal} (h : step s = .refused x) (k : Nat) :
    runSteps (k + 1) s = .refused x := by
  simp only [runSteps, h]

/-- Operations without a reserved word are all performed. -/
theorem runSteps_of_no_reservedWord {ops : List Request} (operations : ∀ q ∈ ops, reservedWord q.cmd = false) {s : State}
    (inputs : s.inputs = ops.map .op) :
    ∃ t, runSteps ops.length s = .next t ∧ t.inputs = [] ∧ t.position = s.position + ops.length := by
  induction ops generalizing s with
  | nil => exact ⟨s, rfl, inputs, rfl⟩
  | cons q ops ih =>
    obtain ⟨first, others⟩ := List.forall_mem_cons.mp operations
    obtain ⟨u, next, inputs_u, position_u⟩ := step_of_not_reservedWord inputs first
    obtain ⟨t, run, inputs_t, position_t⟩ := ih others inputs_u
    refine ⟨t, (runSteps_succ_next next _).trans run, inputs_t, ?_⟩
    rw [position_t, position_u, List.length_cons]
    omega

/-- The first reserved word among the operations stops the run. -/
theorem runSteps_of_reservedWord {ops : List Request} (reserved : ∃ q ∈ ops, reservedWord q.cmd = true) {s : State}
    (inputs : s.inputs = ops.map .op) :
    ∃ q ∈ ops, reservedWord q.cmd = true ∧ runSteps ops.length s = .refused (.reservedCommandWord q.cmd) := by
  induction ops generalizing s with
  | nil =>
    obtain ⟨q, mem, -⟩ := reserved
    exact absurd mem List.not_mem_nil
  | cons q ops ih =>
    cases first : reservedWord q.cmd with
    | true => exact ⟨q, List.mem_cons_self, first, runSteps_succ_refused (step_of_reservedWord inputs first) _⟩
    | false =>
      have later := ((List.exists_mem_cons_iff _ _ _).mp reserved).resolve_left (Bool.eq_false_iff.mp first)
      obtain ⟨u, next, inputs_u, -⟩ := step_of_not_reservedWord inputs first
      obtain ⟨q', mem, stops, run⟩ := ih later inputs_u
      exact ⟨q', List.mem_cons_of_mem q mem, stops, (runSteps_succ_next next _).trans run⟩

/-- Settles O49: the run performs the whole list or stops at its first reserved word, and what it performed is in records
that agree, as every step keeps them. -/
theorem runOfOperations : Obligations.RunOfOperations := by
  intro start ops
  refine ⟨fun operations => ?_, fun reserved => runSteps_of_reservedWord reserved (launch_inputs start ops)⟩
  obtain ⟨t, run, inputs, position⟩ := runSteps_of_no_reservedWord operations (launch_inputs start ops)
  rw [launch_position, Nat.zero_add] at position
  have coherent : t.Coherent := runSteps_keeps step_keeps_coherent (launch_coherent start ops) run
  refine ⟨t, run, inputs, position, ?_, coherent.faults⟩
  rw [State.responses, List.length_map, ← coherent.position, position]

end Sys2Proof.Machine

/-! ## The model's interface to a command word (log entries 3 and 4)

A number of 8 to 28 bits decodes as the ports it is read into, and a step runs what is presented as its next input. -/

namespace Sys2Proof.Machine

/-- A number outside the two refused lengths decodes as the ports it is read into. -/
theorem decodeBits_of_length {nbits : Nat} (whole : 8 ≤ nbits) (fits : nbits ≤ 28) (w : Nat) :
    decodeBits nbits w = .ok (decode (requestOfBits (w % 2 ^ nbits))) := by
  rw [decodeBits, if_neg (Nat.not_lt.mpr whole), if_neg (Nat.not_lt.mpr fits)]

theorem decodeTableWord_of_length {nbits : Nat} (whole : 8 ≤ nbits) (fits : nbits ≤ 28) (w : Nat) :
    decodeTableWord nbits w = some (decode (requestOfBits (w % 2 ^ nbits))) := by
  rw [decodeTableWord, decodeBits_of_length whole fits]

/-- A presented operation is what the step runs, and the input in whose place it stood is gone. -/
theorem step_present (s : State) (q : Request) :
    step (s.present q) = exec (decode q) { s with inputs := s.inputs.tail } :=
  step_op (s.present_inputs q)

/-- A placed number runs as the instruction it decodes to, at every length that decodes. -/
theorem step_withFetchWord {nbits : Nat} (whole : 8 ≤ nbits) (fits : nbits ≤ 28) (s : State) {w : Nat} {i : Instr}
    (decoded : decodeTableWord nbits w = some i) :
    step (s.withFetchWord nbits w) = exec i { s with inputs := s.inputs.tail } := by
  obtain rfl : decode (requestOfBits (w % 2 ^ nbits)) = i :=
    Option.some.inj ((decodeTableWord_of_length whole fits w).symm.trans decoded)
  exact step_present s _

/-- Settles O23: a command word has 8 bits, a length that decodes. -/
theorem placedWordIsRun : Obligations.PlacedWordIsRun :=
  fun s _ _ => step_withFetchWord (by decide) (by decide) s

end Sys2Proof.Machine
